-- ==== Sys2Proof/Word.lean ====
section
/-! DEFINITION. The bit vectors of the machine: words, instruction words, selectors and bytes.

A Word is an unsigned XLEN-bit value (00_scope.md section 5). XLEN is 64 or 32 (R2), so every Word is
held in one 64-bit container. At XLEN = 32 the container's upper half is 0 in every state a run
of a constructed core reaches: construction admits no wider draw, `Params.wrap` (Decode.lean) takes a value modulo 2^XLEN,
and every result passes through it. -/

namespace Sys2Proof

/-- An unsigned XLEN-bit value in its 64-bit container (00_scope.md section 5, R32). -/
abbrev Word := BitVec 64

/-- A 32-bit instruction word; bit 0 is the least significant bit (R46, D27). -/
abbrev InstrWord := BitVec 32

/-- A register selector, 5 bits wide (10_state.md R11). -/
abbrev Selector := BitVec 5

/-- One byte of a program image (20_memory.md R39). -/
abbrev Byte := BitVec 8

end Sys2Proof
end

