-- ==== Sys2Proof/Config.lean ====
section
/-! DEFINITION. What is fixed when a core is constructed (00_scope.md section 4), and the one free value.

The three parameters are data (`Params`), carried by the state and changed by no step, so that a claim can
be stated for both values of each, as R4, R5 and D2 ask. -/

namespace Sys2Proof

/-- The word widths a model admits, and no other (R2, D2). -/
inductive Xlen where
  | x32
  | x64
  deriving DecidableEq, Repr

/-- XLEN as a number of bits (R2). -/
def Xlen.bits : Xlen → Nat
  | .x32 => 32
  | .x64 => 64

/-- ADDI_IMM_EXT: how ADDI widens its 12-bit immediate (R4, R51). -/
inductive ImmExt where
  | zero
  | sign
  deriving DecidableEq, Repr

/-- JAL_LINK: which value JAL writes to rd, the next address or the target (R5, R89). -/
inductive JalLink where
  | next
  | target
  deriving DecidableEq, Repr

/-- The implementation parameters of one core (00_scope.md section 4). PROGRAM and REG_INIT are not here:
they are the initial contents of state. -/
structure Params where
  xlen : Xlen
  immExt : ImmExt
  jalLink : JalLink
  deriving DecidableEq, Repr

/-- The values the spec decides: XLEN = 64, ADDI_IMM_EXT = zero, JAL_LINK = next (R2, R4, R5). -/
def Params.decided : Params := { xlen := .x64, immExt := .zero, jalLink := .next }

/-- FREE VALUE (log entry 9): the result of a disabled ALU on its two operands. R26: it "is undefined
(holds no guaranteed value — callers must not read it)". It has no body, so nothing can be proved of it,
and no step reads it. -/
opaque Config.disabledAlu : Word → Word → Word

end Sys2Proof
end

