-- ==== Sys2Proof/Syntax.lean ====
section
/-! DEFINITION. The instructions, one constructor per row of spec/opcode_table.json, and the decoder's
output record DecodedControl (30_encoding.md R59). -/

namespace Sys2Proof

/-- The instructions of the core (00_scope.md section 1: ADD, ADDI and JAL). Every field of an encoding is
kept, so that a legal word and its instruction determine each other. -/
inductive Instr where
  /-- ADD (R54, R83). `funct3` is not examined: any value executes as ADD. -/
  | add (funct3 : BitVec 3) (rd rs1 rs2 : Selector)
  /-- ADDI (R56, R84). `imm` is imm_I, the 12-bit field w[31:20]. -/
  | addi (rd rs1 : Selector) (imm : BitVec 12)
  /-- JAL (R58, R87). `off` is imm_J, 21 bits, read as a signed byte offset; its bit 0 is 0 (R50). -/
  | jal (rd : Selector) (off : BitVec 21)
  deriving DecidableEq, Repr

/-- The operations of the ALU: ADD is the only one (10_state.md R25, R27, D26). -/
inductive AluOp where
  | add
  deriving DecidableEq, Repr

/-- Where the first ALU operand comes from (30_encoding.md R59). -/
inductive Src1 where
  /-- read port 1, x[rs1] -/
  | rs1
  /-- the program counter -/
  | pc
  deriving DecidableEq, Repr

/-- Where the second ALU operand comes from (30_encoding.md R59). -/
inductive Src2 where
  /-- read port 2, x[rs2] -/
  | rs2
  /-- the widened ADDI immediate -/
  | imm
  /-- the constant 0 -/
  | zero
  deriving DecidableEq, Repr

/-- What the decoder derives from the latched instruction (30_encoding.md R59); it has no storage. -/
structure DecodedControl where
  illegal : Bool
  aluEn : Bool
  aluOp : AluOp
  src1 : Src1
  src2 : Src2
  imm : Word
  rs1 : Selector
  rs2 : Selector
  rd : Selector
  regwrite : Bool
  branchOffset : Word
  deriving DecidableEq, Repr

end Sys2Proof
end

