-- ==== Sys2Proof/WellFormed.lean ====
section
/-! DEFINITION. Which terms of `Instr` stand for an instruction of the core.

Selectors, funct3 and imm_I are held in exactly their bits, so only imm_J needs a check: R50 fixes
imm_J[0] = 0 and R87 says the offset is even. -/

namespace Sys2Proof

/-- A JAL's 21-bit offset has bit 0 clear (R50, R87); the other operands are right by their types. -/
def Instr.wf : Instr → Bool
  | .add _ _ _ _ => true
  | .addi _ _ _ => true
  | .jal _ off => !off.getLsbD 0

end Sys2Proof
end

