-- ==== Sys2Proof/Decode.lean ====
section
/-! DEFINITION. The word arithmetic modulo 2^XLEN, the instruction fields, the decoder, the decoder's
control outputs, and the encoder (30_encoding.md). -/

namespace Sys2Proof

/-! ### Arithmetic and extension modulo 2^XLEN (00_scope.md section 5) -/

/-- A value modulo 2^XLEN: keep its low XLEN bits. -/
def Params.wrap (p : Params) (w : Word) : Word := (w.setWidth p.xlen.bits).setWidth 64

/-- A container holds an XLEN-bit value: it is its own value modulo 2^XLEN (R32). -/
abbrev Params.fits (p : Params) (w : Word) : Prop := p.wrap w = w

/-- Addition of Words, modulo 2^XLEN. -/
def Params.add (p : Params) (a b : Word) : Word := p.wrap (a + b)

/-- Subtraction of Words, modulo 2^XLEN. -/
def Params.sub (p : Params) (a b : Word) : Word := p.wrap (a - b)

/-- sext_N: sign-extend an N-bit pattern to XLEN bits. -/
def Params.sext (p : Params) {n : Nat} (v : BitVec n) : Word := p.wrap (v.signExtend 64)

/-- zext_N: zero-extend an N-bit pattern to XLEN bits. -/
def Params.zext (p : Params) {n : Nat} (v : BitVec n) : Word := p.wrap (v.setWidth 64)

/-! ### Fields (R47, R49, R50) -/

/-- opcode = w[6:0]. -/
def opcodeOf (w : InstrWord) : BitVec 7 := w.extractLsb' 0 7

/-- rd = w[11:7]. -/
def rdOf (w : InstrWord) : Selector := w.extractLsb' 7 5

/-- funct3 = w[14:12]. -/
def funct3Of (w : InstrWord) : BitVec 3 := w.extractLsb' 12 3

/-- rs1 = w[19:15]. -/
def rs1Of (w : InstrWord) : Selector := w.extractLsb' 15 5

/-- rs2 = w[24:20]. -/
def rs2Of (w : InstrWord) : Selector := w.extractLsb' 20 5

/-- funct7 = w[31:25]. -/
def funct7Of (w : InstrWord) : BitVec 7 := w.extractLsb' 25 7

/-- imm_I = w[31:20] (R49). -/
def immIOf (w : InstrWord) : BitVec 12 := w.extractLsb' 20 12

/-- imm_J = cat(w[31], w[19:12], w[20], w[30:21], 0b0) (R50, C3). -/
def immJOf (w : InstrWord) : BitVec 21 :=
  w.extractLsb' 31 1 ++ w.extractLsb' 12 8 ++ w.extractLsb' 20 1 ++ w.extractLsb' 21 10 ++ 0#1

/-- REG, IMM and JAL: the three assigned opcodes (section 4 of 30_encoding.md). -/
def opReg : BitVec 7 := 0b0110011#7
def opImm : BitVec 7 := 0b0010011#7
def opJal : BitVec 7 := 0b1101111#7

/-! ### The decode table (R54 to R58) -/

/-- Why bytes are rejected: an illegal word, by the row of the decode table, or too few bytes. -/
inductive Reject where
  /-- opcode REG with funct7 other than 0 (R55) -/
  | regFunct7
  /-- opcode IMM with funct3 other than 0 (R57) -/
  | immFunct3
  /-- an opcode that is none of REG, IMM and JAL (R58) -/
  | opcode
  /-- fewer than the four bytes of a word (R46); no fetch gives this -/
  | truncated
  deriving DecidableEq, Repr

/-- The instruction a word stands for, or the illegal row it falls under; total over all words
(R54 to R58, R64). -/
def decodeWord (w : InstrWord) : Except Reject Instr :=
  if opcodeOf w = opReg then
    if funct7Of w = 0#7 then .ok (.add (funct3Of w) (rdOf w) (rs1Of w) (rs2Of w)) else .error .regFunct7
  else if opcodeOf w = opImm then
    if funct3Of w = 0#3 then .ok (.addi (rdOf w) (rs1Of w) (immIOf w)) else .error .immFunct3
  else if opcodeOf w = opJal then .ok (.jal (rdOf w) (immJOf w))
  else .error .opcode

/-- The word held by four bytes: the byte at offset j is bits 8j+7 : 8j (R39). -/
def wordOfBytes (b0 b1 b2 b3 : Byte) : InstrWord := b3 ++ b2 ++ b1 ++ b0

/-- The byte at offset j of a word (R39). -/
def byteOf (w : InstrWord) (j : Nat) : Byte := w.extractLsb' (8 * j) 8

/-- The four bytes of a word, lowest address first (R39). -/
def bytesOfWord (w : InstrWord) : List Byte := [byteOf w 0, byteOf w 1, byteOf w 2, byteOf w 3]

/-- The instruction at the head of a byte sequence, with the bytes after it. -/
def decode : List Byte → Except Reject (Instr × List Byte)
  | b0 :: b1 :: b2 :: b3 :: rest =>
    match decodeWord (wordOfBytes b0 b1 b2 b3) with
    | .ok i => .ok (i, rest)
    | .error e => .error e
  | _ => .error .truncated

/-! ### The decoder's control outputs (R59 to R63) -/

/-- imm_ADDI: the 12-bit immediate widened as ADDI_IMM_EXT says (R51). -/
def addiImm (p : Params) (imm : BitVec 12) : Word :=
  match p.immExt with
  | .zero => p.zext imm
  | .sign => p.sext imm

/-- off_J: the 21-bit immediate sign-extended (R52). -/
def jalOffset (p : Params) (off : BitVec 21) : Word := p.sext off

/-- The decoder's branch_offset for JAL: off_J - 4 (R62). -/
def jalBranchOffset (p : Params) (off : BitVec 21) : Word := p.sub (jalOffset p off) 4#64

/-- The outputs R60 starts from: nothing enabled, the selectors of the word. -/
def DecodedControl.base (rs1 rs2 rd : Selector) : DecodedControl :=
  { illegal := false, aluEn := false, aluOp := .add, src1 := .rs1, src2 := .rs2, imm := 0#64,
    rs1 := rs1, rs2 := rs2, rd := rd, regwrite := false, branchOffset := 0#64 }

/-- The decoder function of R60, total over all words. The machine runs each instruction on the control
record of its own family file; Laws/Encoding.lean proves those records equal to this function's. -/
def decoder (p : Params) (w : InstrWord) : DecodedControl :=
  let d := DecodedControl.base (rs1Of w) (rs2Of w) (rdOf w)
  if opcodeOf w = opReg then
    if funct7Of w = 0#7 then
      { d with aluEn := true, regwrite := true, src1 := .rs1, src2 := .rs2 }
    else { d with illegal := true }
  else if opcodeOf w = opImm then
    if funct3Of w = 0#3 then
      { d with aluEn := true, regwrite := true, src1 := .rs1, src2 := .imm, imm := addiImm p (immIOf w) }
    else { d with illegal := true }
  else if opcodeOf w = opJal then
    let j := { d with branchOffset := jalBranchOffset p (immJOf w) }
    if rdOf w = 0#5 then j
    else { j with aluEn := true, regwrite := true, src1 := .pc, src2 := .zero }
  else { d with illegal := true }

/-! ### The encoder (R48, R49, R50) -/

/-- The word of an instruction, laid out as the format tables give it: R (R48), I (R49), J (R50). -/
def encode : Instr → InstrWord
  | .add funct3 rd rs1 rs2 => 0b0000000#7 ++ rs2 ++ rs1 ++ funct3 ++ rd ++ opReg
  | .addi rd rs1 imm => imm ++ rs1 ++ 0b000#3 ++ rd ++ opImm
  | .jal rd off =>
    off.extractLsb' 20 1 ++ off.extractLsb' 1 10 ++ off.extractLsb' 11 1 ++ off.extractLsb' 12 8 ++ rd ++ opJal

/-- The bytes of an instruction, lowest address first (R39). -/
def encodeBytes (i : Instr) : List Byte := bytesOfWord (encode i)

/-! ### The host's reading of the opcode table -/

/-- The 32-bit word of `nbits` table bits `w`, every bit above them 0. -/
def tableWord (nbits w : Nat) : InstrWord := BitVec.ofNat 32 (w % 2 ^ nbits)

/-- What the decoder reads from the table's bits, laid out as four little-endian bytes. -/
def decodeTableWord (nbits w : Nat) : Option Instr :=
  match decode (bytesOfWord (tableWord nbits w)) with
  | .ok (i, _) => some i
  | .error _ => none

end Sys2Proof
end

