-- ==== Sys2Proof/Machine/State.lean ====
section
/-! DEFINITION. The state of one core (10_state.md R10: "There is no other state"), with what is fixed at
construction, and the reasons a step can stop. -/

namespace Sys2Proof.Machine

/-- The five phases of an instruction, in their cyclic order (10_state.md R19). -/
inductive Phase where
  | fetch
  | decode
  | memAccess
  | execute
  | writeback
  deriving DecidableEq, Repr

/-- The one kind of exception the core raises (60_exceptions.md R91). -/
inductive Exception where
  | illegalInstruction
  deriving DecidableEq, Repr

/-- Why the machine stops. -/
inductive Fault where
  /-- Raised by a FETCH step whose word index is not below N (20_memory.md R36, 40_sequencer.md R71). The
  hardware's output there is unspecified and it goes on with some word; the model has no successor. SAFE. -/
  | fetchOutOfRange
  deriving DecidableEq, Repr

/-- Why an instruction has no meaning. -/
inductive Refusal where
  /-- Raised by an arm of exec whose instruction is not modelled; no arm raises it. SAFE. -/
  | notModelled (mnemonic : String)
  deriving DecidableEq, Repr

/-- The instruction memory: byte cells at strictly rising addresses. An address that is not listed holds no
value, and a fetch that needs it is out of range (20_memory.md R35, R36, R39). -/
abbrev Memory := List Host.Cell

/-- The register file's 30 storage cells: entry k is x(k+1) (10_state.md R11). -/
abbrev RegFile := Vector Word 30

/-- The state of one core (10_state.md R10). `params` and `mem` are fixed at construction: no step changes
them (00_scope.md R2 to R5, 20_memory.md R34, R44). -/
structure State where
  /-- XLEN, ADDI_IMM_EXT and JAL_LINK (R2, R4, R5) -/
  params : Params
  /-- the instruction memory, which holds PROGRAM (R34) -/
  mem : Memory
  /-- x1 to x30 (R11) -/
  regs : RegFile
  /-- the program counter (R16, R17) -/
  pc : Word
  /-- the phase the next step performs (R19) -/
  phase : Phase
  /-- the halt latch (R20) -/
  halted : Bool
  /-- the retired-instruction counter (R21) -/
  cycles : Word
  /-- the latched instruction word (R22) -/
  ir : InstrWord
  /-- the latched ALU result (R23) -/
  aluOut : Word
  deriving DecidableEq, Repr

/-- What the outside can read between any two steps (10_state.md R29). -/
structure Snapshot where
  pc : Word
  /-- registers[1..30] -/
  registers : RegFile
  stage : Phase
  halted : Bool
  cycles : Word
  deriving DecidableEq, Repr

/-- A core just constructed with the decided parameters and no program loaded yet (70_reset_and_hazards.md
R108 to R112). R113 and R114 leave x1..x30, ir and alu_out open: they are 0 here (DESIGN CHOICE, log
entries 4 and 5); `State.construct` (Ops.lean) takes any values of their widths, and the PROGRAM,
which R3 requires of a core; here none is loaded yet (log entry 6). -/
def State.reset : State :=
  { params := Params.decided, mem := [], regs := Vector.replicate 30 0#64, pc := 0#64, phase := .fetch,
    halted := false, cycles := 0#64, ir := 0#32, aluOut := 0#64 }

end Sys2Proof.Machine
end

