-- ==== Sys2Proof/Machine/Ops.lean ====
section
/-! DEFINITION. The components' operations: the instruction memory, the register file, the ALU, the
construction of a core, the snapshot, and raising the exception. -/

namespace Sys2Proof.Machine

/-! ### The instruction memory (20_memory.md) -/

/-- The canonical form: addresses strictly rising. An unlisted address holds no value, so no entry can
equal what an unlisted address reads as. -/
abbrev Memory.wf (m : Memory) : Prop := m.Pairwise fun x y => x.1 < y.1

/-- The byte at an address, if the address is listed. -/
def Memory.readByte : Memory → Nat → Option Byte
  | [], _ => none
  | (k, b) :: m, a => if a = k then some b else Memory.readByte m a

/-- Put a byte at an address, keeping the canonical form. The core never does this: only loading does. -/
def Memory.writeByte : Memory → Nat → Byte → Memory
  | [], a, b => [(a, b)]
  | (k, c) :: m, a, b =>
    if a < k then (a, b) :: (k, c) :: m
    else if a = k then (a, b) :: m
    else (k, c) :: Memory.writeByte m a b

/-- PROGRAM[index]: the word at byte addresses 4·index to 4·index + 3, little-endian (R34, R39). -/
def Memory.readWord (m : Memory) (index : Nat) : Option InstrWord :=
  match m.readByte (4 * index), m.readByte (4 * index + 1), m.readByte (4 * index + 2),
    m.readByte (4 * index + 3) with
  | some b0, some b1, some b2, some b3 => some (wordOfBytes b0 b1 b2 b3)
  | _, _, _, _ => none

/-- Load one word at a word index (a loader's act, R3, R39). -/
def Memory.writeWord (m : Memory) (index : Nat) (w : InstrWord) : Memory :=
  (((m.writeByte (4 * index) (byteOf w 0)).writeByte (4 * index + 1) (byteOf w 1)).writeByte
    (4 * index + 2) (byteOf w 2)).writeByte (4 * index + 3) (byteOf w 3)

/-- The cells of a list of words, the first at word index `index` (R39). -/
def Memory.ofWordsFrom : Nat → List InstrWord → Memory
  | _, [] => []
  | index, w :: ws =>
    (4 * index, byteOf w 0) :: (4 * index + 1, byteOf w 1) :: (4 * index + 2, byteOf w 2) ::
      (4 * index + 3, byteOf w 3) :: Memory.ofWordsFrom (index + 1) ws

/-- The instruction memory that holds PROGRAM, its first word at address 0 (R34, R41). -/
def Memory.ofWords (program : List InstrWord) : Memory := Memory.ofWordsFrom 0 program

/-- IMem(addr): the word at index addr >> 2, or nothing when that index is out of range (R35, R36). The low
two address bits are ignored (R37). -/
def Memory.imem (m : Memory) (addr : Word) : Option InstrWord := m.readWord (addr >>> 2).toNat

/-- N: how many words PROGRAM has (R3). -/
def Memory.programLength (m : Memory) : Nat := m.length / 4

/-! ### The register file (10_state.md R11 to R15) -/

/-- A selector that names a storage cell: 1 to 30 (R11). -/
def isMapped (sel : Selector) : Bool := 1 ≤ sel.toNat && sel.toNat ≤ 30

/-- read(sel): 0 for selectors 0 and 31, the stored value for 1 to 30 (R12). -/
def RegFile.read (r : RegFile) (sel : Selector) : Word :=
  if isMapped sel then r.toList.getD (sel.toNat - 1) 0#64 else 0#64

/-- The two independent read ports (R13). -/
def RegFile.readPorts (r : RegFile) (sel1 sel2 : Selector) : Word × Word := (r.read sel1, r.read sel2)

/-- write(sel, value, enable): stores for an enabled selector 1 to 30, and is silently ignored otherwise
(R14). -/
def RegFile.write (r : RegFile) (sel : Selector) (value : Word) (enable : Bool) : RegFile :=
  if enable && isMapped sel then r.setIfInBounds (sel.toNat - 1) value else r

/-! ### The ALU (10_state.md R25 to R27) -/

/-- The combinational ALU: the sum modulo 2^XLEN when enabled (R25), a free value when not (R26). -/
def alu (p : Params) (enable : Bool) (op : AluOp) (op1 op2 : Word) : Word :=
  if enable then
    match op with
    | .add => p.add op1 op2
  else p.wrap (Config.disabledAlu op1 op2)

/-! ### Construction and the snapshot -/

/-- A PROGRAM the core admits: 1 ≤ N ≤ 2^(XLEN-2) (R3, D19). -/
abbrev AdmissibleProgram (p : Params) (program : List InstrWord) : Prop :=
  1 ≤ program.length ∧ program.length ≤ 2 ^ (p.xlen.bits - 2)

/-- The draws a core can be built with: REG_INIT and the initial alu_out are XLEN-bit values (R6, R10, R32). The
initial ir has its 32 bits by its type. -/
abbrev AdmissibleDraw (p : Params) (regInit : RegFile) (aluInit : Word) : Prop :=
  (∀ k : Fin 30, p.fits regInit[k]) ∧ p.fits aluInit

/-- The reset state over an instruction memory that holds a list of words (70_reset_and_hazards.md R108), with
REG_INIT and the initial latches given (R6, R113, R114): the fields alone. `State.construct` builds a core
with it where they are values a core can have, and only there. -/
def State.initial (p : Params) (program : List InstrWord) (regInit : RegFile) (irInit : InstrWord)
    (aluInit : Word) : State :=
  { params := p, mem := Memory.ofWords program, regs := regInit, pc := 0#64, phase := .fetch,
    halted := false, cycles := 0#64, ir := irInit, aluOut := aluInit }

/-- Reset is construction (R107): a core is built from its parameters, a PROGRAM that R3 admits and draws of
XLEN-bit values (R32), and starts in the reset state. Anything else builds no core. -/
def State.construct (p : Params) (program : List InstrWord) (regInit : RegFile) (irInit : InstrWord)
    (aluInit : Word) : Option State :=
  if AdmissibleProgram p program ∧ AdmissibleDraw p regInit aluInit then
    some (State.initial p program regInit irInit aluInit)
  else none

/-- The instruction memory holds a PROGRAM that R3 admits, and nothing else (R3, R34). -/
def State.Loaded (s : State) : Prop :=
  ∃ program, AdmissibleProgram s.params program ∧ s.mem = Memory.ofWords program

/-- The snapshot: a read of the committed state that changes nothing (10_state.md R29). -/
def State.snapshot (s : State) : Snapshot :=
  { pc := s.pc, registers := s.regs, stage := s.phase, halted := s.halted, cycles := s.cycles }

/-- The number a stage is encoded as, where one is needed (10_state.md R19, D17). -/
def Phase.number : Phase → Nat
  | .fetch => 0
  | .decode => 1
  | .memAccess => 2
  | .execute => 3
  | .writeback => 4

/-- The phase after a phase (40_sequencer.md R70). -/
def Phase.succ : Phase → Phase
  | .fetch => .decode
  | .decode => .memAccess
  | .memAccess => .execute
  | .execute => .writeback
  | .writeback => .fetch

/-! ### The exception (60_exceptions.md R91 to R96)

There is no return from it: "no recovery path, no exception vector, no resumption" (R93, R96). -/

/-- Raising IllegalInstruction sets the halt latch and does nothing else (R93). -/
def takeException (e : Exception) (s : State) : State :=
  match e with
  | .illegalInstruction => { s with halted := true }

/-- The cause number of an exception, where one is needed (R91, D28). -/
def Exception.cause : Exception → Nat
  | .illegalInstruction => 0

end Sys2Proof.Machine
end

