-- ==== Sys2Proof/Machine/Operands.lean ====
section
/-! DEFINITION. The routing of the two ALU operands (40_sequencer.md R74, 30_encoding.md R53, R59). Both
read the state before the step (R78). -/

namespace Sys2Proof.Machine

/-- The first operand: x[rs1], or for JAL the PC value JAL_LINK selects (R74, R89). In the EXECUTE step of a
JAL at A, pc is A + 4 and pc + branch_offset is A + off_J. -/
def operand1 (d : DecodedControl) (s : State) : Word :=
  match d.src1 with
  | .rs1 => s.regs.read d.rs1
  | .pc =>
    match s.params.jalLink with
    | .next => s.pc
    | .target => s.params.add s.pc d.branchOffset

/-- The second operand: x[rs2], the widened immediate, or 0 (R74). -/
def operand2 (d : DecodedControl) (s : State) : Word :=
  match d.src2 with
  | .rs2 => s.regs.read d.rs2
  | .imm => d.imm
  | .zero => 0#64

end Sys2Proof.Machine
end

