-- ==== Sys2Proof/Machine/Flags.lean ====
section
/-! DEFINITION. Flags and control lines. The core has no status flags and no condition codes, and no
instruction reads or writes a flag (10_state.md R18). Its two control lines are no state: they are functions
of `phase` and `ir` (R24). -/

namespace Sys2Proof.Machine

/-- The ALU enable line: asserted in the EXECUTE step of an instruction whose alu_en is true (R24). -/
def State.aluEnableLine (s : State) : Bool :=
  s.phase = .execute && (decoder s.params s.ir).aluEn

/-- The register write enable line: asserted in the WRITEBACK step of an instruction whose regwrite is true,
and in no other step (R24). -/
def State.writeEnableLine (s : State) : Bool :=
  s.phase = .writeback && (decoder s.params s.ir).regwrite

end Sys2Proof.Machine
end

