-- ==== Sys2Proof/Machine/Sequencer.lean ====
section
/-! DEFINITION. The phase actions of the CpuSequencer (40_sequencer.md R69 to R78), driven by the control
record of the instruction in flight. Every right-hand side reads the state before the step (R78). -/

namespace Sys2Proof.Machine

/-- What a FETCH step latches: the word at pc, into ir (R71); nothing if that fetch is out of range. The other
phases latch nothing, and the instruction in flight is the one already in ir (R81). -/
def present (s : State) : Option State :=
  match s.phase with
  | .fetch =>
    match s.mem.imem s.pc with
    | some w => some { s with ir := w }
    | none => none
  | .decode => some s
  | .memAccess => some s
  | .execute => some s
  | .writeback => some s

/-- FETCH, once the word is latched: the PC advances by 4 (R71). -/
def fetchPhase (s : State) : State :=
  { s with pc := s.params.add s.pc 4#64, phase := .decode }

/-- DECODE: an illegal word raises the exception; nothing else changes but the phase (R72). -/
def decodePhase (d : DecodedControl) (s : State) : State :=
  { (if d.illegal then takeException .illegalInstruction s else s) with phase := .memAccess }

/-- MEMACCESS: "no state mutation (reserved)" (R73). -/
def memAccessPhase (s : State) : State :=
  { s with phase := .execute }

/-- EXECUTE: the ALU result is latched when alu_en is true (R74), and a nonzero branch offset is added to the
PC (R75). -/
def executePhase (d : DecodedControl) (s : State) : State :=
  { s with
    aluOut := if d.aluEn then alu s.params true d.aluOp (operand1 d s) (operand2 d s) else s.aluOut
    pc := if d.branchOffset = 0#64 then s.pc else s.params.add s.pc d.branchOffset
    phase := .writeback }

/-- WRITEBACK: the write port is driven with rd, alu_out and regwrite (R76), and the instruction retires
(R77). -/
def writebackPhase (d : DecodedControl) (s : State) : State :=
  { s with
    regs := s.regs.write d.rd s.aluOut d.regwrite
    phase := .fetch
    cycles := s.params.add s.cycles 1#64 }

/-- The step of an instruction whose control record is `d`, in the phase the state is in (R79). -/
def cycle (d : DecodedControl) (s : State) : State :=
  match s.phase with
  | .fetch => fetchPhase s
  | .decode => decodePhase d s
  | .memAccess => memAccessPhase s
  | .execute => executePhase d s
  | .writeback => writebackPhase d s

/-- The decoder's outputs for an illegal word (R63). -/
def illegalControl (w : InstrWord) : DecodedControl :=
  { DecodedControl.base (rs1Of w) (rs2Of w) (rdOf w) with illegal := true }

/-- The step of an illegal word in flight. Its FETCH advances the PC and its DECODE halts the core
(R72, R93). -/
def execIllegal (s : State) : Host.Outcome State Fault Refusal :=
  .next (cycle (illegalControl s.ir) s)

end Sys2Proof.Machine
end

