-- ==== Sys2Proof/Machine/Integer.lean ====
section
/-! DEFINITION. The integer family, ADD and ADDI (41_integer.md). A meaning is the step of the instruction in
the phase the state is in, its word being in `ir`: five of them, FETCH to WRITEBACK, carry it out. -/

namespace Sys2Proof.Machine

/-- The decoded control of ADD (R83): ALU on x[rs1] and x[rs2], result to rd. -/
def addControl (rd rs1 rs2 : Selector) : DecodedControl :=
  { DecodedControl.base rs1 rs2 rd with aluEn := true, regwrite := true, src1 := .rs1, src2 := .rs2 }

/-- ADD (R83): x[rd] <- x[rs1] + x[rs2] modulo 2^XLEN. funct3 is not examined (R54). -/
def execAdd (_funct3 : BitVec 3) (rd rs1 rs2 : Selector) (s : State) : Host.Outcome State Fault Refusal :=
  .next (cycle (addControl rd rs1 rs2) s)

/-- The decoded control of ADDI (R84): ALU on x[rs1] and imm_ADDI, result to rd. The rs2 output is w[24:20],
the immediate's low five bits, and is not used (R47). -/
def addiControl (p : Params) (rd rs1 : Selector) (imm : BitVec 12) : DecodedControl :=
  { DecodedControl.base rs1 (imm.extractLsb' 0 5) rd with
    aluEn := true, regwrite := true, src1 := .rs1, src2 := .imm, imm := addiImm p imm }

/-- ADDI (R84): x[rd] <- x[rs1] + imm_ADDI modulo 2^XLEN. -/
def execAddi (rd rs1 : Selector) (imm : BitVec 12) (s : State) : Host.Outcome State Fault Refusal :=
  .next (cycle (addiControl s.params rd rs1 imm) s)

end Sys2Proof.Machine
end

