-- ==== Sys2Proof/Machine/Jump.lean ====
section
/-! DEFINITION. The control-transfer family, JAL (42_jump.md). A meaning is the step of the instruction in the
phase the state is in, its word being in `ir`. -/

namespace Sys2Proof.Machine

/-- The decoded control of JAL (R87, R61, R62): branch_offset = off_J - 4 always; the ALU and the register
write only when rd is not 0. The rs1 and rs2 outputs are w[19:15] and w[24:20], bits of the immediate, and
are not used (R47). -/
def jalControl (p : Params) (rd : Selector) (off : BitVec 21) : DecodedControl :=
  let d := { DecodedControl.base (off.extractLsb' 15 5) (off.extractLsb' 1 4 ++ off.extractLsb' 11 1) rd with
    branchOffset := jalBranchOffset p off }
  if rd = 0#5 then d else { d with aluEn := true, regwrite := true, src1 := .pc, src2 := .zero }

/-- JAL (R87 to R89): pc <- A + off_J, and x[rd] <- the link value when rd is not 0. -/
def execJal (rd : Selector) (off : BitVec 21) (s : State) : Host.Outcome State Fault Refusal :=
  .next (cycle (jalControl s.params rd off) s)

end Sys2Proof.Machine
end

