-- ==== Sys2Proof/Machine/Dispatch.lean ====
section
/-! DEFINITION. One arm per instruction, each a direct call of its meaning. -/

namespace Sys2Proof.Machine

def exec (i : Instr) (s : State) : Host.Outcome State Fault Refusal :=
  match i with
  | .add funct3 rd rs1 rs2 => Sys2Proof.Machine.execAdd funct3 rd rs1 rs2 s
  | .addi rd rs1 imm => Sys2Proof.Machine.execAddi rd rs1 imm s
  | .jal rd off => Sys2Proof.Machine.execJal rd off s

end Sys2Proof.Machine
end

