-- ==== Sys2Proof/Machine/Step.lean ====
section
/-! DEFINITION. The step function: one step is one phase transition (40_sequencer.md R69, R79). -/

namespace Sys2Proof.Machine

/-- The step of the word in `ir`: its instruction's, or an illegal word's. -/
def runInFlight (s : State) : Host.Outcome State Fault Refusal :=
  match decodeWord s.ir with
  | .ok i => exec i s
  | .error _ => execIllegal s

/-- One step (R69, R79). A halted core does nothing. A FETCH step latches the word at pc, or faults; then the
instruction in flight performs the phase. -/
def step (s : State) : Host.Outcome State Fault Refusal :=
  if s.halted then .next s
  else
    match present s with
    | none => .fault .fetchOutOfRange
    | some s' => runInFlight s'

/-- The state with the table's word loaded where the next fetch reads (word index pc >> 2), and ready to fetch:
in the FETCH phase and not halted. From State.reset only the memory changes. It stands for the load of
PROGRAM, which comes from outside the core (70_reset_and_hazards.md R115, log entries 6 and 12). -/
def State.withFetchWord (s : State) (nbits w : Nat) : State :=
  { s with mem := s.mem.writeWord (s.pc >>> 2).toNat (tableWord nbits w), phase := .fetch, halted := false }

end Sys2Proof.Machine
end

