-- ==== Sys2Proof/Machine/Assembly.lean ====
section
/-! DEFINITION. Assembler conventions (30_encoding.md R66 to R68): operand order, ABI register names and
pseudo-instructions. The spec takes them from general knowledge (D25, log entry 17); no step depends on
them. -/

namespace Sys2Proof.Machine

/-- The ABI register names (R67). -/
inductive AbiName where
  | zero | ra | sp | gp | tp
  | t0 | t1 | t2
  | s0 | fp | s1
  | a0 | a1 | a2 | a3 | a4 | a5 | a6 | a7
  | s2 | s3 | s4 | s5 | s6 | s7 | s8 | s9 | s10 | s11
  | t3 | t4 | t5 | t6
  deriving DecidableEq, Repr

/-- The selector an ABI name stands for (R67). -/
def AbiName.selector : AbiName → Selector
  | .zero => 0#5 | .ra => 1#5 | .sp => 2#5 | .gp => 3#5 | .tp => 4#5
  | .t0 => 5#5 | .t1 => 6#5 | .t2 => 7#5
  | .s0 => 8#5 | .fp => 8#5 | .s1 => 9#5
  | .a0 => 10#5 | .a1 => 11#5 | .a2 => 12#5 | .a3 => 13#5 | .a4 => 14#5 | .a5 => 15#5 | .a6 => 16#5 | .a7 => 17#5
  | .s2 => 18#5 | .s3 => 19#5 | .s4 => 20#5 | .s5 => 21#5 | .s6 => 22#5 | .s7 => 23#5 | .s8 => 24#5 | .s9 => 25#5
  | .s10 => 26#5 | .s11 => 27#5
  | .t3 => 28#5 | .t4 => 29#5 | .t5 => 30#5 | .t6 => 31#5

/-- `add rd, rs1, rs2`, assembled with funct3 = 0 (R66). -/
def asmAdd (rd rs1 rs2 : Selector) : Instr := .add 0#3 rd rs1 rs2

/-- `addi rd, rs1, imm`: the 12-bit pattern of `imm`, a negative `-k` being the pattern 2^12 - k (R66); none
where no 12-bit pattern is meant. -/
def asmAddi (rd rs1 : Selector) (imm : Int) : Option Instr :=
  if -2048 ≤ imm ∧ imm ≤ 4095 then some (.addi rd rs1 (BitVec.ofInt 12 imm)) else none

/-- `jal rd, offset`: the byte offset off_J from the JAL's own address (R66), even and in the range of R52;
none elsewhere. -/
def asmJal (rd : Selector) (offset : Int) : Option Instr :=
  if offset % 2 = 0 ∧ -1048576 ≤ offset ∧ offset ≤ 1048574 then some (.jal rd (BitVec.ofInt 21 offset))
  else none

/-- The pseudo-instructions whose expansion this core has (R68). -/
inductive Pseudo where
  | nop
  | mv (rd rs : Selector)
  | li (rd : Selector) (imm : Int)
  | j (offset : Int)
  | jal (offset : Int)
  deriving DecidableEq, Repr

/-- The instruction a pseudo-instruction expands to (R68); none where its operand has no encoding. -/
def Pseudo.expand : Pseudo → Option Instr
  | .nop => asmAddi 0#5 0#5 0
  | .mv rd rs => asmAddi rd rs 0
  | .li rd imm => asmAddi rd 0#5 imm
  | .j offset => asmJal 0#5 offset
  | .jal offset => asmJal 1#5 offset

end Sys2Proof.Machine
end

