-- ==== Sys2Proof/Machine/Product.lean ====
section
/-! DEFINITION. Several cores run by one harness: a product of independent single-core machines, which share
no state (10_state.md R33, 60_exceptions.md R103). -/

namespace Sys2Proof.Machine

/-- Step the core at index `k`; every other core is left as it is. Which core moves next is the harness's
choice. Where no core has that index, nothing happens. -/
def stepCore : List State → Nat → Host.Outcome (List State) Fault Refusal
  | [], _ => .next []
  | c :: cs, 0 =>
    match step c with
    | .next c' => .next (c' :: cs)
    | .fault f => .fault f
    | .refused r => .refused r
  | c :: cs, k + 1 =>
    match stepCore cs k with
    | .next cs' => .next (c :: cs')
    | .fault f => .fault f
    | .refused r => .refused r

end Sys2Proof.Machine
end

