-- ==== Sys2Proof/Safety.lean ====
section
/-! DEFINITION. The terms claims use: runs and their endings, the invariant of the machine, and the step
function of 40_sequencer.md R79 written out as the spec prints it. -/

namespace Sys2Proof

/-- The register an instruction names as its destination. -/
def Instr.dest : Instr → Selector
  | .add _ rd _ _ => rd
  | .addi rd _ _ => rd
  | .jal rd _ => rd

/-- The address of the instruction after one at `a`: A + off_J for JAL (R88), A + 4 otherwise (R86). -/
def Instr.nextPc (p : Params) (a : Word) : Instr → Word
  | .add _ _ _ _ => p.add a 4#64
  | .addi _ _ _ => p.add a 4#64
  | .jal _ off => p.add a (jalOffset p off)

namespace Machine

/-! ### Runs (60_exceptions.md R106) -/

/-- `n` steps, stopping at a fault. -/
def steps : Nat → State → Host.Outcome State Fault Refusal
  | 0, s => .next s
  | n + 1, s =>
    match step s with
    | .next t => steps n t
    | .fault f => .fault f
    | .refused r => .refused r

/-- Ending (a): the run reaches a halted state, which is final (R94, R106). -/
def EndsHalted (s : State) : Prop := ∃ n t, steps n s = .next t ∧ t.halted = true

/-- Ending (b): the run meets a fetch out of range (R36, R106). -/
def EndsOutOfRange (s : State) : Prop := ∃ n, steps n s = .fault .fetchOutOfRange

/-- Ending (c): the run goes on for ever, never halted (R106). -/
def RunsForever (s : State) : Prop := ∀ n, ∃ t, steps n s = .next t ∧ t.halted = false

/-! ### The invariant -/

/-- The word in ir is illegal (R55, R57, R58). -/
abbrev State.irIllegal (s : State) : Prop := (decoder s.params s.ir).illegal = true

/-- What alu_out holds once EXECUTE has run, read from the state after it (R74, R83, R84, R89): the sum of the
operands, which no step has changed since; or the link value of a JAL, the PC before the jump adjustment
(JAL_LINK = next) or the PC itself (JAL_LINK = target). -/
def State.executedResult (s : State) : Word :=
  let d := decoder s.params s.ir
  match d.src1 with
  | .rs1 => s.params.add (s.regs.read d.rs1) (operand2 d s)
  | .pc =>
    match s.params.jalLink with
    | .next => s.params.sub s.pc d.branchOffset
    | .target => s.pc

/-- The invariant of the machine, kept by every step. -/
structure State.Inv (s : State) : Prop where
  /-- the memory is in canonical form -/
  memWf : s.mem.wf
  /-- every listed byte lies in the XLEN-bit address space (20_memory.md R41) -/
  memInSpace : ∀ c ∈ s.mem, c.1 < 2 ^ s.params.xlen.bits
  /-- once anything is loaded, the memory holds a PROGRAM that R3 admits, with 1 ≤ N ≤ 2^(XLEN-2); only
  State.reset, where none is loaded yet, holds no word (log entry 6) -/
  memLoaded : s.mem ≠ [] → s.Loaded
  /-- the registers, the PC, the counter and the ALU latch hold XLEN-bit values (10_state.md R10, R32) -/
  regsFit : ∀ sel, s.params.fits (s.regs.read sel)
  pcFits : s.params.fits s.pc
  cyclesFit : s.params.fits s.cycles
  aluOutFits : s.params.fits s.aluOut
  /-- bit 0 of the PC never becomes 1 (20_memory.md R37) -/
  pcEven : s.pc.getLsbD 0 = false
  /-- a halted core shows the phase MEMACCESS (40_sequencer.md R72) -/
  haltedPhase : s.halted = true → s.phase = .memAccess
  /-- after DECODE, the core is halted exactly when the word in ir is illegal (R72, R91) -/
  memAccessIllegal : s.phase = .memAccess → (s.halted = true ↔ s.irIllegal)
  /-- an illegal word never reaches EXECUTE or WRITEBACK (30_encoding.md R63) -/
  executeLegal : s.phase = .execute → ¬ s.irIllegal
  writebackLegal : s.phase = .writeback → ¬ s.irIllegal
  /-- in WRITEBACK, alu_out holds the result its instruction's EXECUTE computed (10_state.md R23) -/
  writebackResult : s.phase = .writeback → (decoder s.params s.ir).aluEn = true →
    s.aluOut = s.executedResult

/-! ### The step function as R79 prints it -/

/-- The step function of 40_sequencer.md R79, line by line, over the decoder function of R60. -/
def specStep (s : State) : Host.Outcome State Fault Refusal :=
  if s.halted then .next s
  else
    let p := s.params
    let d := decoder p s.ir
    match s.phase with
    | .fetch =>
      match s.mem.imem s.pc with
      | none => .fault .fetchOutOfRange
      | some w => .next { s with ir := w, pc := p.add s.pc 4#64, phase := .decode }
    | .decode =>
      if d.illegal then .next { s with halted := true, phase := .memAccess }
      else .next { s with phase := .memAccess }
    | .memAccess => .next { s with phase := .execute }
    | .execute =>
      let op1 :=
        if d.src1 = .rs1 then s.regs.read d.rs1
        else if p.jalLink = .next then s.pc else p.add s.pc d.branchOffset
      let op2 := if d.src2 = .rs2 then s.regs.read d.rs2 else if d.src2 = .imm then d.imm else 0#64
      let s' := if d.aluEn then { s with aluOut := p.add op1 op2 } else s
      let s'' := if d.branchOffset ≠ 0#64 then { s' with pc := p.add s.pc d.branchOffset } else s'
      .next { s'' with phase := .writeback }
    | .writeback =>
      let s' :=
        if d.regwrite ∧ 1 ≤ d.rd.toNat ∧ d.rd.toNat ≤ 30 then
          { s with regs := s.regs.setIfInBounds (d.rd.toNat - 1) s.aluOut }
        else s
      .next { s' with phase := .fetch, cycles := p.add s.cycles 1#64 }

end Machine

end Sys2Proof
end

