-- ==== Sys2Proof/Certificates/Slice0/Obligations.lean ====
section
/-! DEFINITION. The statements for the provers. Each formalises the rules of spec/ its docstring names. -/

open Sys2Proof Sys2Proof.Machine

/-! ### Encoding and decoding (30_encoding.md) -/

/-- Decoding an encoded well-formed instruction gives it back, as a word and at the head of a byte sequence
(30_encoding.md sections 1, 2 and 4). No bit of an encoding is dropped. An ADD term's funct3 is the model's
choice (log entry 20); the byte order is the spec's decision D15 (log entry 7). -/
def Obligations.DecodeOfEncodeGivesTheInstruction : Prop :=
  ∀ (i : Instr) (rest : List Byte), i.wf = true →
    decodeWord (encode i) = .ok i ∧ decode (encodeBytes i ++ rest) = .ok (i, rest)

/-- A word that decodes is the encoding of the instruction it decodes to, which is well-formed: each legal word
has one meaning (30_encoding.md sections 2 and 4), and each instruction term one word. That an ADD word whose
funct3 is not 0 has a term of its own, where R54 gives one ADD eight words, is the model's choice: the
constructor keeps funct3 (log entry 20). -/
def Obligations.LegalWordIsItsInstructionsEncoding : Prop :=
  ∀ (w : InstrWord) (i : Instr), decodeWord w = .ok i → i.wf = true ∧ encode i = w

/-- Which words are legal, by the masks and matches of spec/opcode_table.json; every other word is illegal, a
word whose bits 1..0 are not 11 among them (30_encoding.md sections 4 and 6). -/
def Obligations.LegalWordsAreTheOpcodeTableRows : Prop :=
  ∀ w : InstrWord,
    ((∃ funct3 rd rs1 rs2, decodeWord w = .ok (.add funct3 rd rs1 rs2)) ↔ w &&& 0xFE00007F#32 = 0x00000033#32) ∧
    ((∃ rd rs1 imm, decodeWord w = .ok (.addi rd rs1 imm)) ↔ w &&& 0x0000707F#32 = 0x00000013#32) ∧
    ((∃ rd off, decodeWord w = .ok (.jal rd off)) ↔ w &&& 0x0000007F#32 = 0x0000006F#32) ∧
    ((∃ e, decodeWord w = .error e) ↔
      (w &&& 0xFE00007F#32 ≠ 0x00000033#32 ∧ w &&& 0x0000707F#32 ≠ 0x00000013#32 ∧
        w &&& 0x0000007F#32 ≠ 0x0000006F#32)) ∧
    (w &&& 0x3#32 ≠ 0x3#32 → ∃ e, decodeWord w = .error e)

/-- Words written out from the format tables decode to the instructions they stand for: the source's own
examples E5 and E6, one JAL with every immediate slice in use, and one word for each illegal row. -/
def Obligations.WrittenOutWordsDecode : Prop :=
  decodeWord 0b0000000_01011_01010_000_01010_0110011#32 = .ok (.add 0 10 10 11) ∧
  decodeWord 0b0000000_01011_01010_110_01010_0110011#32 = .ok (.add 6 10 10 11) ∧
  decodeWord 0b000001000010_00000_000_01011_0010011#32 = .ok (.addi 11 0 0x42) ∧
  decodeWord 0b1_1111111110_1_11111111_00000_1101111#32 = .ok (.jal 0 0x1FFFFC) ∧
  decodeWord 0b0_0000000001_0_10000000_00001_1101111#32 = .ok (.jal 1 0x80002) ∧
  decodeWord 0b0100000_01011_01010_000_01010_0110011#32 = .error .regFunct7 ∧
  decodeWord 0b000000000001_01010_010_01010_0010011#32 = .error .immFunct3 ∧
  decodeWord 0x00000000#32 = .error .opcode ∧ decodeWord 0x000000E7#32 = .error .opcode

/-- Which bit of the word each bit of imm_J is (R50; that each slice maps in order, low bit to low bit, is the
spec's decision D8, log entry 15). -/
def Obligations.JalImmediateSlices : Prop :=
  ∀ w : InstrWord,
    (immJOf w).getLsbD 20 = w.getLsbD 31 ∧
    (∀ k, 12 ≤ k → k ≤ 19 → (immJOf w).getLsbD k = w.getLsbD k) ∧
    (immJOf w).getLsbD 11 = w.getLsbD 20 ∧
    (∀ k, 1 ≤ k → k ≤ 10 → (immJOf w).getLsbD k = w.getLsbD (k + 20)) ∧
    (immJOf w).getLsbD 0 = false

/-- R52: off_J is the 21-bit immediate read as a signed number, modulo 2^XLEN; of every word it is even and in
-2^20 .. 2^20 - 2. -/
def Obligations.JalOffsetIsTheSignedImmediate : Prop :=
  ∀ (p : Params) (w : InstrWord),
    -1048576 ≤ (immJOf w).toInt ∧ (immJOf w).toInt ≤ 1048574 ∧ (immJOf w).toInt % 2 = 0 ∧
    ((jalOffset p (immJOf w)).toNat : Int) = (immJOf w).toInt % 2 ^ p.xlen.bits

/-- 30_encoding.md section 3 (R51, the spec's decision D7, log entry 2): imm_ADDI is the pattern itself under
`zero` and the signed pattern modulo 2^XLEN under `sign`; the two readings agree exactly when bit 11 of the
pattern is 0. -/
def Obligations.AddiImmediateWidening : Prop :=
  ∀ (p : Params) (imm : BitVec 12),
    (p.immExt = .zero → (addiImm p imm).toNat = imm.toNat) ∧
    (p.immExt = .sign → ((addiImm p imm).toNat : Int) = imm.toInt % 2 ^ p.xlen.bits) ∧
    (addiImm { p with immExt := .zero } imm = addiImm { p with immExt := .sign } imm ↔
      imm.getLsbD 11 = false)

/-- The decoder's outputs, for the word of every instruction and for every illegal word (30_encoding.md section
5, R59 to R63). -/
def Obligations.DecoderOutputsOfEveryWord : Prop :=
  (∀ p funct3 rd rs1 rs2, decoder p (encode (.add funct3 rd rs1 rs2)) =
    { illegal := false, aluEn := true, aluOp := .add, src1 := .rs1, src2 := .rs2, imm := 0#64, rs1 := rs1,
      rs2 := rs2, rd := rd, regwrite := true, branchOffset := 0#64 }) ∧
  (∀ p rd rs1 imm, decoder p (encode (.addi rd rs1 imm)) =
    { illegal := false, aluEn := true, aluOp := .add, src1 := .rs1, src2 := .imm, imm := addiImm p imm,
      rs1 := rs1, rs2 := rs2Of (encode (.addi rd rs1 imm)), rd := rd, regwrite := true, branchOffset := 0#64 }) ∧
  (∀ p rd off, (Instr.jal rd off).wf = true → rd ≠ 0#5 → decoder p (encode (.jal rd off)) =
    { illegal := false, aluEn := true, aluOp := .add, src1 := .pc, src2 := .zero, imm := 0#64,
      rs1 := rs1Of (encode (.jal rd off)), rs2 := rs2Of (encode (.jal rd off)), rd := rd, regwrite := true,
      branchOffset := p.sub (jalOffset p off) 4#64 }) ∧
  (∀ p off, (Instr.jal 0#5 off).wf = true → decoder p (encode (.jal 0#5 off)) =
    { illegal := false, aluEn := false, aluOp := .add, src1 := .rs1, src2 := .rs2, imm := 0#64,
      rs1 := rs1Of (encode (.jal 0#5 off)), rs2 := rs2Of (encode (.jal 0#5 off)), rd := 0#5, regwrite := false,
      branchOffset := p.sub (jalOffset p off) 4#64 }) ∧
  (∀ p w e, decodeWord w = .error e → decoder p w =
    { illegal := true, aluEn := false, aluOp := .add, src1 := .rs1, src2 := .rs2, imm := 0#64, rs1 := rs1Of w,
      rs2 := rs2Of w, rd := rdOf w, regwrite := false, branchOffset := 0#64 })

/-! ### The register file, the ALU, the instruction memory (10_state.md, 20_memory.md) -/

/-- R14: the guarded write port. An enabled write to a selector 1 to 30 stores the value in that selector's cell
and in no other; any other write (not enabled, or to selector 0 or 31) changes nothing. -/
def Obligations.GuardedWritePort : Prop :=
  ∀ (r : RegFile) (sel : Selector) (v : Word) (enable : Bool),
    (∀ k : Fin 30, (r.write sel v enable)[k] = if enable = true ∧ sel.toNat = k + 1 then v else r[k]) ∧
    (enable = false ∨ sel = 0#5 ∨ sel = 31#5 → r.write sel v enable = r)

/-- 10_state.md section 2 (R12, R14): a read after a write. An enabled write to a selector 1 to 30 is what that
selector reads next, and every other selector reads as before; any other write changes nothing at all; selectors
1 to 30 read their stored cell; selectors 0 and 31 read 0, always (for 31, the spec's decision D4, log entry
10). -/
def Obligations.RegisterFileReadAfterWrite : Prop :=
  ∀ (r : RegFile) (sel : Selector) (v : Word) (enable : Bool),
    (∀ sel' : Selector, (r.write sel v enable).read sel' =
      if enable = true ∧ sel' = sel ∧ 1 ≤ sel.toNat ∧ sel.toNat ≤ 30 then v else r.read sel') ∧
    (¬ (enable = true ∧ 1 ≤ sel.toNat ∧ sel.toNat ≤ 30) → r.write sel v enable = r) ∧
    (∀ k : Fin 30, r.read (BitVec.ofNat 5 (k + 1)) = r[k]) ∧ r.read 0#5 = 0#64 ∧ r.read 31#5 = 0#64

/-- R25: the enabled ALU adds modulo 2^XLEN, commutes, and wraps without a flag. -/
def Obligations.AluAddsModuloXlen : Prop :=
  ∀ (p : Params) (a b : Word),
    (alu p true .add a b).toNat = (a.toNat + b.toNat) % 2 ^ p.xlen.bits ∧
    alu p true .add a b = alu p true .add b a ∧
    alu p true .add (BitVec.ofNat 64 (2 ^ p.xlen.bits - 1)) 1#64 = 0#64

/-- 20_memory.md section 1 (R35, R36): a fetch at addr reads PROGRAM[addr >> 2] where that index is below N; a
FETCH step beyond N faults, and no later step is reached (the fault is the spec's decision D13, log entry 8). -/
def Obligations.FetchReadsTheProgramOrFaults : Prop :=
  ∀ (program : List InstrWord),
    (∀ addr : Word, (Memory.ofWords program).imem addr = program[addr.toNat / 4]?) ∧
    (∀ s : State, s.mem = Memory.ofWords program → s.halted = false → s.phase = .fetch →
      program.length ≤ s.pc.toNat / 4 → ∀ n, steps (n + 1) s = .fault .fetchOutOfRange)

/-- 20_memory.md section 1: a fetch ignores the low two address bits, whatever the memory holds (R37, with the
spec's decision D12, log entry 16). -/
def Obligations.FetchIgnoresTheLowAddressBits : Prop :=
  ∀ (m : Memory) (k : Nat) (j : Nat), k < 2 ^ 62 → j < 4 →
    m.imem (BitVec.ofNat 64 (4 * k + j)) = m.imem (BitVec.ofNat 64 (4 * k))

/-- A step faults exactly when a core that is not halted is in FETCH with no word at pc, and no step ever
refuses (20_memory.md section 1, 40_sequencer.md section 2). -/
def Obligations.StepFaultsExactlyOnFetchOutOfRange : Prop :=
  ∀ s : State,
    (∀ f, step s = .fault f ↔
      (f = .fetchOutOfRange ∧ s.halted = false ∧ s.phase = .fetch ∧ s.mem.imem s.pc = none)) ∧
    (∀ r, step s ≠ .refused r)

/-! ### The sequencer (40_sequencer.md) -/

/-- A step runs the decoded instruction. When the four bytes of the word at pc decode to an instruction, a FETCH
step of a core that is not halted is exec of it on the state with that word latched in ir; in every other phase
a step is exec of the instruction whose word ir holds (40_sequencer.md, R71, R79, R81; that exec is one
phase, entered after the latch, is the model's choice, log entry 11; the byte order is the spec's decision D15,
log entry 7). -/
def Obligations.StepRunsTheDecodedInstruction : Prop :=
  ∀ (s : State) (i : Instr), s.halted = false →
    (∀ b0 b1 b2 b3 : Byte, s.phase = .fetch →
      s.mem.readByte (4 * (s.pc.toNat / 4)) = some b0 → s.mem.readByte (4 * (s.pc.toNat / 4) + 1) = some b1 →
      s.mem.readByte (4 * (s.pc.toNat / 4) + 2) = some b2 → s.mem.readByte (4 * (s.pc.toNat / 4) + 3) = some b3 →
      decode [b0, b1, b2, b3] = .ok (i, []) →
      step s = exec i { s with ir := wordOfBytes b0 b1 b2 b3 }) ∧
    (s.phase ≠ .fetch → decodeWord s.ir = .ok i → step s = exec i s)

/-- The step is the step function R79 prints, on every state. -/
def Obligations.StepIsThePrintedStepFunction : Prop :=
  ∀ s : State, step s = specStep s

/-- 40_sequencer.md sections 1 and 2 (R70, R77): the phase advances by one in every step of a core that is not
halted, the DECODE step of an illegal word included; the counter grows by 1 in WRITEBACK and in no other step,
modulo 2^XLEN (R77; R21, the spec's decision D14, log entry 18). -/
def Obligations.PhaseAdvancesAndWritebackRetires : Prop :=
  ∀ s t : State, s.halted = false → step s = .next t →
    (s.phase = .fetch → t.phase = .decode) ∧ (s.phase = .decode → t.phase = .memAccess) ∧
    (s.phase = .memAccess → t.phase = .execute) ∧ (s.phase = .execute → t.phase = .writeback) ∧
    (s.phase = .writeback → t.phase = .fetch) ∧
    t.cycles = if s.phase = .writeback then s.params.add s.cycles 1#64 else s.cycles

/-- R71: a FETCH step latches the word at pc and advances pc by 4 modulo 2^XLEN, changing nothing else; where
there is no word it faults. -/
def Obligations.FetchStepLatchesAndAdvances : Prop :=
  ∀ s : State, s.halted = false → s.phase = .fetch →
    (∀ w, s.mem.imem s.pc = some w →
      step s = .next { s with ir := w, pc := s.params.add s.pc 4#64, phase := .decode }) ∧
    (s.mem.imem s.pc = none → step s = .fault .fetchOutOfRange)

/-- R73: a MEMACCESS step changes the phase and nothing else. -/
def Obligations.MemAccessStepOnlyAdvances : Prop :=
  ∀ s : State, s.halted = false → s.phase = .memAccess → step s = .next { s with phase := .execute }

/-- 10_state.md sections 2, 4 and 5 (R15, R24, R26; the sampling and commit points are the spec's decisions D10
and D11, log entry 14): the register array changes only through the write port, driven in the WRITEBACK step of
an instruction whose regwrite is true, and only at rd; the ALU latch changes only in the EXECUTE step of an
instruction whose alu_en is true, to the enabled ALU's result (so the result of a disabled ALU reaches no
state). -/
def Obligations.ControlLinesGateEveryWrite : Prop :=
  ∀ s t : State, s.halted = false → step s = .next t →
    t.regs = s.regs.write (rdOf s.ir) s.aluOut s.writeEnableLine ∧
    (∀ sel, sel ≠ rdOf s.ir → t.regs.read sel = s.regs.read sel) ∧
    (s.writeEnableLine = true ↔ s.phase = .writeback ∧ (decoder s.params s.ir).regwrite = true) ∧
    (s.aluEnableLine = true ↔ s.phase = .execute ∧ (decoder s.params s.ir).aluEn = true) ∧
    t.aluOut = (if s.aluEnableLine = true then
      s.params.add (operand1 (decoder s.params s.ir) s) (operand2 (decoder s.params s.ir) s) else s.aluOut)

/-- 10_state.md section 2 (R16, R17): the PC is written in two places only, by FETCH (+4) and by EXECUTE (the
branch offset, where it is nonzero), both modulo 2^XLEN (the spec's decision D12, log entry 16). -/
def Obligations.PcIsWrittenInFetchAndExecuteOnly : Prop :=
  ∀ s t : State, s.halted = false → step s = .next t →
    (s.phase = .fetch → t.pc.toNat = (s.pc.toNat + 4) % 2 ^ s.params.xlen.bits) ∧
    (s.phase = .execute → (decoder s.params s.ir).branchOffset ≠ 0#64 →
      t.pc.toNat = (s.pc.toNat + (decoder s.params s.ir).branchOffset.toNat) % 2 ^ s.params.xlen.bits) ∧
    (s.phase = .execute → (decoder s.params s.ir).branchOffset = 0#64 → t.pc = s.pc) ∧
    (s.phase ≠ .fetch → s.phase ≠ .execute → t.pc = s.pc)

/-! ### The instructions (41_integer.md, 42_jump.md) -/

/-- ADD runs in every phase, whatever funct3 is: what exec answers in each of its five steps (R83). -/
def Obligations.AddRunsInEveryPhase : Prop :=
  ∀ (funct3 : BitVec 3) (rd rs1 rs2 : Selector) (s : State),
    (s.phase = .fetch → exec (.add funct3 rd rs1 rs2) s =
      .next { s with pc := s.params.add s.pc 4#64, phase := .decode }) ∧
    (s.phase = .decode → exec (.add funct3 rd rs1 rs2) s = .next { s with phase := .memAccess }) ∧
    (s.phase = .memAccess → exec (.add funct3 rd rs1 rs2) s = .next { s with phase := .execute }) ∧
    (s.phase = .execute → exec (.add funct3 rd rs1 rs2) s =
      .next { s with aluOut := s.params.add (s.regs.read rs1) (s.regs.read rs2), phase := .writeback }) ∧
    (s.phase = .writeback → exec (.add funct3 rd rs1 rs2) s =
      .next { s with regs := s.regs.write rd s.aluOut true, phase := .fetch,
                     cycles := s.params.add s.cycles 1#64 })

/-- ADDI runs in every phase: what exec answers in each of its five steps (R84). -/
def Obligations.AddiRunsInEveryPhase : Prop :=
  ∀ (rd rs1 : Selector) (imm : BitVec 12) (s : State),
    (s.phase = .fetch → exec (.addi rd rs1 imm) s =
      .next { s with pc := s.params.add s.pc 4#64, phase := .decode }) ∧
    (s.phase = .decode → exec (.addi rd rs1 imm) s = .next { s with phase := .memAccess }) ∧
    (s.phase = .memAccess → exec (.addi rd rs1 imm) s = .next { s with phase := .execute }) ∧
    (s.phase = .execute → exec (.addi rd rs1 imm) s =
      .next { s with aluOut := s.params.add (s.regs.read rs1) (addiImm s.params imm), phase := .writeback }) ∧
    (s.phase = .writeback → exec (.addi rd rs1 imm) s =
      .next { s with regs := s.regs.write rd s.aluOut true, phase := .fetch,
                     cycles := s.params.add s.cycles 1#64 })

/-- JAL runs in every phase: what exec answers in each of its five steps, for rd = 0 and for every other rd, and
under both values of JAL_LINK (R87). -/
def Obligations.JalRunsInEveryPhase : Prop :=
  ∀ (rd : Selector) (off : BitVec 21) (s : State),
    (s.phase = .fetch → exec (.jal rd off) s =
      .next { s with pc := s.params.add s.pc 4#64, phase := .decode }) ∧
    (s.phase = .decode → exec (.jal rd off) s = .next { s with phase := .memAccess }) ∧
    (s.phase = .memAccess → exec (.jal rd off) s = .next { s with phase := .execute }) ∧
    (s.phase = .execute → exec (.jal rd off) s =
      .next { s with
        aluOut := if rd = 0#5 then s.aluOut
          else s.params.add (match s.params.jalLink with
            | .next => s.pc
            | .target => s.params.add s.pc (jalBranchOffset s.params off)) 0#64
        pc := if jalBranchOffset s.params off = 0#64 then s.pc
          else s.params.add s.pc (jalBranchOffset s.params off)
        phase := .writeback }) ∧
    (s.phase = .writeback → exec (.jal rd off) s =
      .next { s with regs := s.regs.write rd s.aluOut (rd != 0#5), phase := .fetch,
                     cycles := s.params.add s.cycles 1#64 })

/-- R83: ADD at A, from its FETCH step through its WRITEBACK step. Its word lies in the table's row, its decoded
control is R83's, it is never illegal, and five steps answer exactly this next state: ir the word, pc A + 4,
alu_out the sum of the two registers as they were, modulo 2^XLEN, rd written with it (dropped for selectors 0
and 31), the counter one more, everything else as it was. -/
def Obligations.AddNetEffect : Prop :=
  ∀ (funct3 : BitVec 3) (rd rs1 rs2 : Selector) (s : State),
    s.halted = false → s.phase = .fetch →
    s.mem.imem s.pc = some (encode (.add funct3 rd rs1 rs2)) →
    encode (.add funct3 rd rs1 rs2) &&& 0xFE00007F#32 = 0x00000033#32 ∧
    decoder s.params (encode (.add funct3 rd rs1 rs2)) =
      { illegal := false, aluEn := true, aluOp := .add, src1 := .rs1, src2 := .rs2, imm := 0#64, rs1 := rs1,
        rs2 := rs2, rd := rd, regwrite := true, branchOffset := 0#64 } ∧
    ∃ sum : Word,
      sum.toNat = ((s.regs.read rs1).toNat + (s.regs.read rs2).toNat) % 2 ^ s.params.xlen.bits ∧
      steps 5 s = .next { s with
        ir := encode (.add funct3 rd rs1 rs2), pc := s.params.add s.pc 4#64, aluOut := sum,
        regs := s.regs.write rd sum true, cycles := s.params.add s.cycles 1#64 } ∧
      (rd = 0#5 ∨ rd = 31#5 → s.regs.write rd sum true = s.regs) ∧
      (rd ≠ 0#5 → rd ≠ 31#5 → (s.regs.write rd sum true).read rd = sum) ∧
      (∀ sel, sel ≠ rd → (s.regs.write rd sum true).read sel = s.regs.read sel)

/-- R84: ADDI at A, from its FETCH step through its WRITEBACK step, with imm_ADDI widened as ADDI_IMM_EXT says
(zero: the pattern; sign: the pattern minus 4096 where bit 11 is set, modulo 2^XLEN). -/
def Obligations.AddiNetEffect : Prop :=
  ∀ (rd rs1 : Selector) (imm : BitVec 12) (s : State),
    s.halted = false → s.phase = .fetch →
    s.mem.imem s.pc = some (encode (.addi rd rs1 imm)) →
    encode (.addi rd rs1 imm) &&& 0x0000707F#32 = 0x00000013#32 ∧
    decoder s.params (encode (.addi rd rs1 imm)) =
      { illegal := false, aluEn := true, aluOp := .add, src1 := .rs1, src2 := .imm,
        imm := addiImm s.params imm, rs1 := rs1, rs2 := rs2Of (encode (.addi rd rs1 imm)), rd := rd,
        regwrite := true, branchOffset := 0#64 } ∧
    ∃ sum : Word,
      (sum.toNat : Int) = ((s.regs.read rs1).toNat +
        (if s.params.immExt = .sign ∧ 0x800 ≤ imm.toNat then (imm.toNat : Int) - 4096 else imm.toNat)) %
          2 ^ s.params.xlen.bits ∧
      steps 5 s = .next { s with
        ir := encode (.addi rd rs1 imm), pc := s.params.add s.pc 4#64, aluOut := sum,
        regs := s.regs.write rd sum true, cycles := s.params.add s.cycles 1#64 } ∧
      (rd = 0#5 ∨ rd = 31#5 → s.regs.write rd sum true = s.regs) ∧
      (rd ≠ 0#5 → rd ≠ 31#5 → (s.regs.write rd sum true).read rd = sum) ∧
      (∀ sel, sel ≠ rd → (s.regs.write rd sum true).read sel = s.regs.read sel)

/-- R87: JAL at A, from its FETCH step through its WRITEBACK step. pc becomes A + off_J modulo 2^XLEN for every
even offset, 0 and 4 included; with rd = 0 no register and no ALU latch changes; with any other rd the link
value is latched and written to rd (dropped for selector 31); both values of JAL_LINK. -/
def Obligations.JalNetEffect : Prop :=
  ∀ (rd : Selector) (off : BitVec 21) (s : State),
    (Instr.jal rd off).wf = true → s.halted = false → s.phase = .fetch →
    s.mem.imem s.pc = some (encode (.jal rd off)) →
    encode (.jal rd off) &&& 0x0000007F#32 = 0x0000006F#32 ∧
    (decoder s.params (encode (.jal rd off))).branchOffset = s.params.sub (jalOffset s.params off) 4#64 ∧
    (decoder s.params (encode (.jal rd off))).aluEn = (rd != 0#5) ∧
    (decoder s.params (encode (.jal rd off))).regwrite = (rd != 0#5) ∧
    (rd ≠ 0#5 → (decoder s.params (encode (.jal rd off))).src1 = .pc ∧
      (decoder s.params (encode (.jal rd off))).src2 = .zero) ∧
    ∃ target link : Word,
      (target.toNat : Int) = (s.pc.toNat + off.toInt) % 2 ^ s.params.xlen.bits ∧
      (s.params.jalLink = .next → link.toNat = (s.pc.toNat + 4) % 2 ^ s.params.xlen.bits) ∧
      (s.params.jalLink = .target → link = target) ∧
      steps 5 s = .next { s with
        ir := encode (.jal rd off), pc := target, aluOut := if rd = 0#5 then s.aluOut else link,
        regs := s.regs.write rd link (rd != 0#5), cycles := s.params.add s.cycles 1#64 } ∧
      (rd = 0#5 ∨ rd = 31#5 → s.regs.write rd link (rd != 0#5) = s.regs) ∧
      (rd ≠ 0#5 → rd ≠ 31#5 → (s.regs.write rd link (rd != 0#5)).read rd = link) ∧
      (∀ sel, sel ≠ rd → (s.regs.write rd link (rd != 0#5)).read sel = s.regs.read sel)

/-- 42_jump.md (R89): the two readings of the link value, A + 4 and A + off_J, agree exactly when off_J = 4. -/
def Obligations.LinkReadingsAgreeOnlyAtOffsetFour : Prop :=
  ∀ (p : Params) (a : Word) (off : BitVec 21),
    p.add a 4#64 = p.add a (jalOffset p off) ↔ off = 4#21

/-- The frame of ADD, ADDI and JAL: whenever exec answers a next state, all of memory reads as before (none of
them stores), the parameters, the halt latch and the latched word are as before, the counter changes only in
WRITEBACK and the ALU latch only in EXECUTE, and every register reads as before but the destination, which
changes only in WRITEBACK (10_state.md section 2, 41_integer.md, 42_jump.md). The PC may change. -/
def Obligations.InstructionsChangeOnlyTheirDestination : Prop :=
  ∀ (i : Instr) (s t : State), exec i s = .next t →
    t.mem = s.mem ∧ (∀ a, t.mem.readByte a = s.mem.readByte a) ∧
    t.params = s.params ∧ t.halted = s.halted ∧ t.ir = s.ir ∧
    (∀ sel, sel ≠ i.dest → t.regs.read sel = s.regs.read sel) ∧
    (s.phase ≠ .writeback → t.regs = s.regs ∧ t.cycles = s.cycles) ∧
    (s.phase ≠ .execute → t.aluOut = s.aluOut)

/-- 30_encoding.md section 6 (R65): an ADD or ADDI to selector 0 or 31 runs to its end and changes nothing the
snapshot shows but pc and cycles (and the stage, which is back at FETCH). -/
def Obligations.WriteToAnUnmappedSelectorIsANop : Prop :=
  ∀ (i : Instr) (s : State), (∀ rd off, i ≠ .jal rd off) → i.dest = 0#5 ∨ i.dest = 31#5 →
    s.halted = false → s.phase = .fetch → s.mem.imem s.pc = some (encode i) →
    ∃ t, steps 5 s = .next t ∧
      t.snapshot = { s.snapshot with pc := s.params.add s.pc 4#64, cycles := s.params.add s.cycles 1#64 }

/-- 70_reset_and_hazards.md section 4 (R120, which the spec derives, with its decision D11): what the snapshot
shows after each of the five steps of a legal instruction at A. -/
def Obligations.SnapshotAfterEachStepOfAnInstruction : Prop :=
  ∀ (i : Instr) (s : State), i.wf = true → s.halted = false → s.phase = .fetch →
    s.mem.imem s.pc = some (encode i) →
    ∃ s1 s2 s3 s4 s5 : State,
      step s = .next s1 ∧ step s1 = .next s2 ∧ step s2 = .next s3 ∧ step s3 = .next s4 ∧ step s4 = .next s5 ∧
      s1.snapshot = { s.snapshot with pc := s.params.add s.pc 4#64, stage := .decode } ∧
      s2.snapshot = { s1.snapshot with stage := .memAccess } ∧
      s3.snapshot = { s2.snapshot with stage := .execute } ∧
      s4.snapshot = { s3.snapshot with pc := i.nextPc s.params s.pc, stage := .writeback } ∧
      s5.snapshot = { s4.snapshot with
        registers := s.regs.write i.dest s4.aluOut (decoder s.params (encode i)).regwrite,
        cycles := s.params.add s.cycles 1#64, stage := .fetch }

/-! ### The halt (60_exceptions.md) -/

/-- 60_exceptions.md section 1 (R93, R95, which the spec derives from R70 to R72; the phase MEMACCESS is its
decision D18, log entry 13): an illegal word at A. Its FETCH step latches it and advances pc; its DECODE step
sets the halt latch and does nothing else; after the two the state is exactly this and stays so for ever: pc = A
+ 4, phase MEMACCESS, registers, alu_out and cycles as the instruction before left them. -/
def Obligations.IllegalWordHaltsPrecisely : Prop :=
  ∀ (s : State) (w : InstrWord) (e : Reject), s.halted = false → s.phase = .fetch →
    s.mem.imem s.pc = some w → decodeWord w = .error e →
    steps 1 s = .next { s with ir := w, pc := s.params.add s.pc 4#64, phase := .decode } ∧
    ∀ n, steps (n + 2) s =
      .next { s with ir := w, pc := s.params.add s.pc 4#64, phase := .memAccess, halted := true }

/-- R94: once halted is true, every later step leaves the whole state unchanged. -/
def Obligations.HaltedCoreIsFrozen : Prop :=
  ∀ s : State, s.halted = true → step s = .next s ∧ ∀ n, steps n s = .next s

/-- R20: the halt latch is false at reset, only the DECODE step of an illegal word sets it, and nothing clears
it: once it is true, a step changes nothing. -/
def Obligations.HaltLatchIsSetOnlyByDecodingAnIllegalWord : Prop :=
  (∀ p program regInit irInit aluInit, (State.initial p program regInit irInit aluInit).halted = false) ∧
  ∀ s t : State, step s = .next t →
    (t.halted = true ↔
      s.halted = true ∨ (s.phase = .decode ∧ ∃ e, decodeWord s.ir = .error e)) ∧
    (s.halted = true → t = s)

/-- ADD, ADDI and JAL never raise IllegalInstruction, in any phase; and the words that raise it are exactly the
illegal ones: a DECODE step of a core that is not halted sets the halt latch exactly when the word in ir is
illegal (60_exceptions.md section 1, R91, R92). -/
def Obligations.LegalInstructionsNeverHalt : Prop :=
  (∀ (i : Instr) (s t : State), s.halted = false → exec i s = .next t → t.halted = false) ∧
  ∀ s t : State, s.halted = false → s.phase = .decode → step s = .next t →
    (t.halted = true ↔ ∃ e, decodeWord s.ir = .error e)

/-- 60_exceptions.md section 5 (R106, the spec's decisions D13 and D29, log entry 8): every run ends in exactly
one of three ways: halted, at a fetch out of range, or not at all. -/
def Obligations.EveryRunEndsInOneOfThreeWays : Prop :=
  ∀ s : State,
    (EndsHalted s ∨ EndsOutOfRange s ∨ RunsForever s) ∧
    ¬ (EndsHalted s ∧ EndsOutOfRange s) ∧ ¬ (EndsHalted s ∧ RunsForever s) ∧
    ¬ (EndsOutOfRange s ∧ RunsForever s)

/-! ### Reset, timing and whole-machine rules (70_reset_and_hazards.md) -/

/-- 70_reset_and_hazards.md section 1 (R108): the reset state of a core constructed from any parameters, any
PROGRAM and any draws: pc and phase (R109, R110: the spec's decision D6, log entry 19), halted and cycles; the
registers are the draw; x0 and x31 read 0 (for x31 the spec's decision D4, log entry 10); both enable lines are
deasserted (its decision D11, log entry 14); N is the length of PROGRAM, which the memory holds as byte cells
(log entry 7); and the first step fetches PROGRAM[0] (R109, D6). It holds of any list of words and
any containers; State.construct answers this state for the PROGRAMs R3 admits and draws of XLEN-bit values. -/
def Obligations.ConstructedCoreIsInTheResetState : Prop :=
  ∀ (p : Params) (program : List InstrWord) (regInit : RegFile) (irInit : InstrWord) (aluInit : Word),
    (State.initial p program regInit irInit aluInit).pc = 0#64 ∧
    (State.initial p program regInit irInit aluInit).phase = .fetch ∧
    (State.initial p program regInit irInit aluInit).halted = false ∧
    (State.initial p program regInit irInit aluInit).cycles = 0#64 ∧
    (State.initial p program regInit irInit aluInit).regs = regInit ∧
    (State.initial p program regInit irInit aluInit).regs.read 0#5 = 0#64 ∧
    (State.initial p program regInit irInit aluInit).regs.read 31#5 = 0#64 ∧
    (State.initial p program regInit irInit aluInit).aluEnableLine = false ∧
    (State.initial p program regInit irInit aluInit).writeEnableLine = false ∧
    (State.initial p program regInit irInit aluInit).mem.programLength = program.length ∧
    (∀ w, program[0]? = some w → step (State.initial p program regInit irInit aluInit) =
      .next { State.initial p program regInit irInit aluInit with ir := w, pc := 4#64, phase := .decode })

/-- The model's State.reset is the reset state with the decided parameters and no word loaded, and with 0 for
the registers and latches the spec leaves open (the model's choice: log entries 4, 5 and 6), so its first step
is a fetch out of range until a program is loaded. -/
def Obligations.ResetHasNothingLoaded : Prop :=
  State.reset = State.initial Params.decided [] (Vector.replicate 30 0#64) 0#32 0#64 ∧
  step State.reset = .fault .fetchOutOfRange

/-- 20_memory.md section 4 (R44, which the spec derives): the program never changes. After any number of steps
every fetch of every address returns the same word, or the same fault, and the parameters are the same. -/
def Obligations.ProgramNeverChanges : Prop :=
  ∀ (n : Nat) (s t : State), steps n s = .next t →
    t.mem = s.mem ∧ t.params = s.params ∧ ∀ a, t.mem.imem a = s.mem.imem a

/-- The invariant holds of every constructed core, for every admissible PROGRAM and every draw of XLEN-bit
registers and latches (00_scope.md section 4, 10_state.md section 1); and of State.reset, whose register and
latch values are the model's choice (log entries 4 and 5). -/
def Obligations.ConstructedCoreMeetsTheInvariant : Prop :=
  (∀ (p : Params) (program : List InstrWord) (regInit : RegFile) (irInit : InstrWord) (aluInit : Word),
    AdmissibleProgram p program → (∀ sel, p.fits (regInit.read sel)) → p.fits aluInit →
    (State.initial p program regInit irInit aluInit).Inv) ∧
  State.reset.Inv

/-- Every step keeps the invariant: the memory's canonical form, an admissible PROGRAM once anything is loaded
(the spec's decision D19, log entry 22), XLEN-bit registers, an even PC, a halted core in MEMACCESS (D18, log
entry 13) with an illegal word, no illegal word past MEMACCESS, and in WRITEBACK the ALU latch holding its
instruction's result (10_state.md, 20_memory.md section 1, 40_sequencer.md). -/
def Obligations.StepKeepsTheInvariant : Prop :=
  ∀ s t : State, s.Inv → step s = .next t → t.Inv

/-- 70_reset_and_hazards.md section 4 (R119 and R80, which the spec derives): a legal instruction takes exactly
five steps, an illegal one two and then the core is halted, a faulting fetch one. -/
def Obligations.InstructionsTakeFiveSteps : Prop :=
  ∀ s : State, s.halted = false → s.phase = .fetch →
    (∀ w i, s.mem.imem s.pc = some w → decodeWord w = .ok i →
      (∃ t, steps 5 s = .next t ∧ t.phase = .fetch ∧ t.halted = false ∧
        t.cycles = s.params.add s.cycles 1#64) ∧
      ∀ n, 1 ≤ n → n ≤ 4 → ∃ u, steps n s = .next u ∧ u.phase ≠ .fetch ∧ u.halted = false ∧
        u.cycles = s.cycles ∧ u.regs = s.regs) ∧
    (∀ w e, s.mem.imem s.pc = some w → decodeWord w = .error e →
      (∃ u, steps 1 s = .next u ∧ u.halted = false) ∧
      ∃ t, steps 2 s = .next t ∧ t.halted = true ∧ t.cycles = s.cycles ∧ t.regs = s.regs) ∧
    (s.mem.imem s.pc = none → steps 1 s = .fault .fetchOutOfRange)

/-- 70_reset_and_hazards.md section 4 (R121, which the spec derives): the step-count law, for a core constructed
from any parameters, program and draws: while it is not halted and no fetch has faulted, after n steps cycles =
n div 5 modulo 2^XLEN and the phase is the (n mod 5)-th; and if the k-th instruction fetched is illegal the core
halts at step 5(k-1) + 2 with cycles = k - 1 and phase MEMACCESS. -/
def Obligations.StepCountLaw : Prop :=
  ∀ (p : Params) (program : List InstrWord) (regInit : RegFile) (irInit : InstrWord) (aluInit : Word),
    (∀ (n : Nat) (t : State), steps n (State.initial p program regInit irInit aluInit) = .next t →
      t.halted = false → t.cycles.toNat = n / 5 % 2 ^ p.xlen.bits ∧ t.phase.number = n % 5) ∧
    (∀ (k : Nat) (u : State) (w : InstrWord) (e : Reject), 1 ≤ k →
      steps (5 * (k - 1)) (State.initial p program regInit irInit aluInit) = .next u → u.halted = false →
      u.mem.imem u.pc = some w → decodeWord w = .error e →
      (∃ v, steps (5 * (k - 1) + 1) (State.initial p program regInit irInit aluInit) = .next v ∧
        v.halted = false) ∧
      ∃ t, steps (5 * (k - 1) + 2) (State.initial p program regInit irInit aluInit) = .next t ∧
        t.halted = true ∧ t.cycles.toNat = (k - 1) % 2 ^ p.xlen.bits ∧ t.phase = .memAccess)

/-- 70_reset_and_hazards.md section 1 (R114, which the spec derives): no observation depends on the reset
contents of ir and alu_out. Two cores constructed alike but for those two latches show the same snapshot after
every number of steps, and fault together. -/
def Obligations.InitialLatchesAreNeverObserved : Prop :=
  ∀ (p : Params) (program : List InstrWord) (regInit : RegFile) (ir1 ir2 : InstrWord) (alu1 alu2 : Word)
    (n : Nat),
    (∀ t1, steps n (State.initial p program regInit ir1 alu1) = .next t1 →
      ∃ t2, steps n (State.initial p program regInit ir2 alu2) = .next t2 ∧ t1.snapshot = t2.snapshot) ∧
    (∀ f, steps n (State.initial p program regInit ir1 alu1) = .fault f →
      steps n (State.initial p program regInit ir2 alu2) = .fault f)

/-- 10_state.md section 7 (R33): cores share no state. Stepping the core at one index is that core's own step,
and leaves every other core as it was. That a fault of one core is the outcome of the whole product's step is
the model's choice (log entry 21). -/
def Obligations.CoresShareNoState : Prop :=
  ∀ (cores : List State) (k : Nat) (c : State), cores[k]? = some c →
    (∀ c', step c = .next c' → ∃ cores', stepCore cores k = .next cores' ∧ cores'[k]? = some c' ∧
      ∀ j, j ≠ k → cores'[j]? = cores[j]?) ∧
    (∀ f, step c = .fault f → stepCore cores k = .fault f)

/-- The model's load of a word (log entries 6 and 12): after it the next step fetches exactly that word, at the
PC the state had, and every other word of the memory is as it was. -/
def Obligations.LoadedWordIsTheNextFetched : Prop :=
  ∀ (s : State) (w : Nat),
    step (s.withFetchWord 32 w) =
      .next { s.withFetchWord 32 w with
        ir := BitVec.ofNat 32 w, pc := s.params.add s.pc 4#64, phase := .decode } ∧
    (∀ k, k ≠ s.pc.toNat / 4 → (s.withFetchWord 32 w).mem.readWord k = s.mem.readWord k) ∧
    (s.mem.wf → (s.withFetchWord 32 w).mem.wf)

/-- 30_encoding.md section 7, conventions the spec takes from general knowledge (log entry 17): an assembled
ADDI holds the immediate's 12-bit pattern, -k being 2^12 - k; an assembled JAL is well-formed and its offset
reads back as the byte offset written; operands outside the range, of ADDI and of JAL, assemble to nothing. -/
def Obligations.AssembledOperandsReadBack : Prop :=
  (∀ (rd rs1 : Selector) (imm : Int), 0 ≤ imm → imm ≤ 4095 →
    ∃ v, asmAddi rd rs1 imm = some (.addi rd rs1 v) ∧ (v.toNat : Int) = imm) ∧
  (∀ (rd rs1 : Selector) (k : Int), 1 ≤ k → k ≤ 2048 →
    ∃ v, asmAddi rd rs1 (-k) = some (.addi rd rs1 v) ∧ (v.toNat : Int) = 4096 - k) ∧
  (∀ (rd : Selector) (offset : Int), offset % 2 = 0 → -1048576 ≤ offset → offset ≤ 1048574 →
    ∃ v, asmJal rd offset = some (.jal rd v) ∧ v.toInt = offset ∧ (Instr.jal rd v).wf = true) ∧
  (∀ (rd : Selector) (offset : Int), offset % 2 ≠ 0 ∨ offset < -1048576 ∨ 1048574 < offset →
    asmJal rd offset = none) ∧
  (∀ (rd rs1 : Selector) (imm : Int), imm < -2048 ∨ 4095 < imm → asmAddi rd rs1 imm = none)

/-- 00_scope.md section 4 (R3, with the spec's decision D19, log entry 22; R6), 10_state.md section 7 (R32) and
70_reset_and_hazards.md section 1 (R107): a core is constructed from exactly the PROGRAMs with 1 ≤ N ≤
2^(XLEN-2) and the draws of XLEN-bit values, in the reset state over them; after any number of steps its memory
holds the same PROGRAM, with N in that range; and every step of a core that holds an admissible PROGRAM leaves
it holding one. That a draw of wider values builds no core is how the model's containers keep R32 (log entry 1).
-/
def Obligations.ConstructionAdmitsExactlyR3 : Prop :=
  (∀ (p : Params) (program : List InstrWord) (regInit : RegFile) (irInit : InstrWord) (aluInit : Word),
    (1 ≤ program.length ∧ program.length ≤ 2 ^ (p.xlen.bits - 2) →
      (∀ sel, (regInit.read sel).toNat < 2 ^ p.xlen.bits) → aluInit.toNat < 2 ^ p.xlen.bits →
      State.construct p program regInit irInit aluInit = some (State.initial p program regInit irInit aluInit)) ∧
    (program.length = 0 ∨ 2 ^ (p.xlen.bits - 2) < program.length ∨
        (∃ sel, 2 ^ p.xlen.bits ≤ (regInit.read sel).toNat) ∨ 2 ^ p.xlen.bits ≤ aluInit.toNat →
      State.construct p program regInit irInit aluInit = none) ∧
    (∀ (s t : State) (n : Nat), State.construct p program regInit irInit aluInit = some s →
      steps n s = .next t →
      t.mem = Memory.ofWords program ∧ t.params = p ∧ t.mem.programLength = program.length ∧
      1 ≤ t.mem.programLength ∧ t.mem.programLength ≤ 2 ^ (p.xlen.bits - 2))) ∧
  ∀ s t : State, s.Loaded → step s = .next t → t.Loaded

/-- 10_state.md sections 1 and 7 (R10, R32): in every state of every run of a constructed core, the general
registers, the PC, the counter and the ALU latch hold values below 2^XLEN, and so do the registers and the PC
the snapshot shows. The 64-bit containers are the model's choice (log entry 1), and the counter's width is the
spec's decision D14 (log entry 18). -/
def Obligations.ConstructedCoreHoldsXlenBitValues : Prop :=
  ∀ (p : Params) (program : List InstrWord) (regInit : RegFile) (irInit : InstrWord) (aluInit : Word)
    (s t : State) (n : Nat), State.construct p program regInit irInit aluInit = some s → steps n s = .next t →
    (∀ sel, (t.regs.read sel).toNat < 2 ^ p.xlen.bits) ∧ t.pc.toNat < 2 ^ p.xlen.bits ∧
    t.cycles.toNat < 2 ^ p.xlen.bits ∧ t.aluOut.toNat < 2 ^ p.xlen.bits ∧
    (∀ k : Fin 30, t.snapshot.registers[k].toNat < 2 ^ p.xlen.bits) ∧ t.snapshot.pc.toNat < 2 ^ p.xlen.bits
end

