-- ==== Sys2Proof/Laws/State.lean ====
section
/-! SUPPORT. One lemma per field of the state per update, so that no proof unfolds a record update. -/

namespace Sys2Proof.Machine

/-! ### Raising the exception -/

@[simp] theorem takeException_params (e : Exception) (s : State) :
    (takeException e s).params = s.params := by cases e; rfl

@[simp] theorem takeException_mem (e : Exception) (s : State) :
    (takeException e s).mem = s.mem := by cases e; rfl

@[simp] theorem takeException_regs (e : Exception) (s : State) :
    (takeException e s).regs = s.regs := by cases e; rfl

@[simp] theorem takeException_pc (e : Exception) (s : State) :
    (takeException e s).pc = s.pc := by cases e; rfl

@[simp] theorem takeException_phase (e : Exception) (s : State) :
    (takeException e s).phase = s.phase := by cases e; rfl

@[simp] theorem takeException_halted (e : Exception) (s : State) :
    (takeException e s).halted = true := by cases e; rfl

@[simp] theorem takeException_cycles (e : Exception) (s : State) :
    (takeException e s).cycles = s.cycles := by cases e; rfl

@[simp] theorem takeException_ir (e : Exception) (s : State) :
    (takeException e s).ir = s.ir := by cases e; rfl

@[simp] theorem takeException_aluOut (e : Exception) (s : State) :
    (takeException e s).aluOut = s.aluOut := by cases e; rfl

/-! ### FETCH -/

@[simp] theorem fetchPhase_params (s : State) :
    (fetchPhase s).params = s.params := rfl

@[simp] theorem fetchPhase_mem (s : State) :
    (fetchPhase s).mem = s.mem := rfl

@[simp] theorem fetchPhase_regs (s : State) :
    (fetchPhase s).regs = s.regs := rfl

@[simp] theorem fetchPhase_pc (s : State) :
    (fetchPhase s).pc = s.params.add s.pc 4#64 := rfl

@[simp] theorem fetchPhase_phase (s : State) :
    (fetchPhase s).phase = .decode := rfl

@[simp] theorem fetchPhase_halted (s : State) :
    (fetchPhase s).halted = s.halted := rfl

@[simp] theorem fetchPhase_cycles (s : State) :
    (fetchPhase s).cycles = s.cycles := rfl

@[simp] theorem fetchPhase_ir (s : State) :
    (fetchPhase s).ir = s.ir := rfl

@[simp] theorem fetchPhase_aluOut (s : State) :
    (fetchPhase s).aluOut = s.aluOut := rfl

/-! ### DECODE -/

@[simp] theorem decodePhase_params (d : DecodedControl) (s : State) :
    (decodePhase d s).params = s.params := by cases h : d.illegal <;> simp [decodePhase, h]

@[simp] theorem decodePhase_mem (d : DecodedControl) (s : State) :
    (decodePhase d s).mem = s.mem := by cases h : d.illegal <;> simp [decodePhase, h]

@[simp] theorem decodePhase_regs (d : DecodedControl) (s : State) :
    (decodePhase d s).regs = s.regs := by cases h : d.illegal <;> simp [decodePhase, h]

@[simp] theorem decodePhase_pc (d : DecodedControl) (s : State) :
    (decodePhase d s).pc = s.pc := by cases h : d.illegal <;> simp [decodePhase, h]

@[simp] theorem decodePhase_phase (d : DecodedControl) (s : State) :
    (decodePhase d s).phase = .memAccess := rfl

@[simp] theorem decodePhase_halted (d : DecodedControl) (s : State) :
    (decodePhase d s).halted = (d.illegal || s.halted) := by cases h : d.illegal <;> simp [decodePhase, h]

@[simp] theorem decodePhase_cycles (d : DecodedControl) (s : State) :
    (decodePhase d s).cycles = s.cycles := by cases h : d.illegal <;> simp [decodePhase, h]

@[simp] theorem decodePhase_ir (d : DecodedControl) (s : State) :
    (decodePhase d s).ir = s.ir := by cases h : d.illegal <;> simp [decodePhase, h]

@[simp] theorem decodePhase_aluOut (d : DecodedControl) (s : State) :
    (decodePhase d s).aluOut = s.aluOut := by cases h : d.illegal <;> simp [decodePhase, h]

/-! ### MEMACCESS -/

@[simp] theorem memAccessPhase_params (s : State) :
    (memAccessPhase s).params = s.params := rfl

@[simp] theorem memAccessPhase_mem (s : State) :
    (memAccessPhase s).mem = s.mem := rfl

@[simp] theorem memAccessPhase_regs (s : State) :
    (memAccessPhase s).regs = s.regs := rfl

@[simp] theorem memAccessPhase_pc (s : State) :
    (memAccessPhase s).pc = s.pc := rfl

@[simp] theorem memAccessPhase_phase (s : State) :
    (memAccessPhase s).phase = .execute := rfl

@[simp] theorem memAccessPhase_halted (s : State) :
    (memAccessPhase s).halted = s.halted := rfl

@[simp] theorem memAccessPhase_cycles (s : State) :
    (memAccessPhase s).cycles = s.cycles := rfl

@[simp] theorem memAccessPhase_ir (s : State) :
    (memAccessPhase s).ir = s.ir := rfl

@[simp] theorem memAccessPhase_aluOut (s : State) :
    (memAccessPhase s).aluOut = s.aluOut := rfl

/-! ### EXECUTE -/

@[simp] theorem executePhase_params (d : DecodedControl) (s : State) :
    (executePhase d s).params = s.params := rfl

@[simp] theorem executePhase_mem (d : DecodedControl) (s : State) :
    (executePhase d s).mem = s.mem := rfl

@[simp] theorem executePhase_regs (d : DecodedControl) (s : State) :
    (executePhase d s).regs = s.regs := rfl

@[simp] theorem executePhase_pc (d : DecodedControl) (s : State) :
    (executePhase d s).pc = if d.branchOffset = 0#64 then s.pc else s.params.add s.pc d.branchOffset := rfl

@[simp] theorem executePhase_phase (d : DecodedControl) (s : State) :
    (executePhase d s).phase = .writeback := rfl

@[simp] theorem executePhase_halted (d : DecodedControl) (s : State) :
    (executePhase d s).halted = s.halted := rfl

@[simp] theorem executePhase_cycles (d : DecodedControl) (s : State) :
    (executePhase d s).cycles = s.cycles := rfl

@[simp] theorem executePhase_ir (d : DecodedControl) (s : State) :
    (executePhase d s).ir = s.ir := rfl

@[simp] theorem executePhase_aluOut (d : DecodedControl) (s : State) :
    (executePhase d s).aluOut = if d.aluEn then alu s.params true d.aluOp (operand1 d s) (operand2 d s) else s.aluOut := rfl

/-! ### WRITEBACK -/

@[simp] theorem writebackPhase_params (d : DecodedControl) (s : State) :
    (writebackPhase d s).params = s.params := rfl

@[simp] theorem writebackPhase_mem (d : DecodedControl) (s : State) :
    (writebackPhase d s).mem = s.mem := rfl

@[simp] theorem writebackPhase_regs (d : DecodedControl) (s : State) :
    (writebackPhase d s).regs = s.regs.write d.rd s.aluOut d.regwrite := rfl

@[simp] theorem writebackPhase_pc (d : DecodedControl) (s : State) :
    (writebackPhase d s).pc = s.pc := rfl

@[simp] theorem writebackPhase_phase (d : DecodedControl) (s : State) :
    (writebackPhase d s).phase = .fetch := rfl

@[simp] theorem writebackPhase_halted (d : DecodedControl) (s : State) :
    (writebackPhase d s).halted = s.halted := rfl

@[simp] theorem writebackPhase_cycles (d : DecodedControl) (s : State) :
    (writebackPhase d s).cycles = s.params.add s.cycles 1#64 := rfl

@[simp] theorem writebackPhase_ir (d : DecodedControl) (s : State) :
    (writebackPhase d s).ir = s.ir := rfl

@[simp] theorem writebackPhase_aluOut (d : DecodedControl) (s : State) :
    (writebackPhase d s).aluOut = s.aluOut := rfl

/-! ### Loading a word -/

@[simp] theorem State.withFetchWord_params (s : State) (nbits w : Nat) :
    (State.withFetchWord s nbits w).params = s.params := rfl

@[simp] theorem State.withFetchWord_mem (s : State) (nbits w : Nat) :
    (State.withFetchWord s nbits w).mem = s.mem.writeWord (s.pc >>> 2).toNat (tableWord nbits w) := rfl

@[simp] theorem State.withFetchWord_regs (s : State) (nbits w : Nat) :
    (State.withFetchWord s nbits w).regs = s.regs := rfl

@[simp] theorem State.withFetchWord_pc (s : State) (nbits w : Nat) :
    (State.withFetchWord s nbits w).pc = s.pc := rfl

@[simp] theorem State.withFetchWord_phase (s : State) (nbits w : Nat) :
    (State.withFetchWord s nbits w).phase = .fetch := rfl

@[simp] theorem State.withFetchWord_halted (s : State) (nbits w : Nat) :
    (State.withFetchWord s nbits w).halted = false := rfl

@[simp] theorem State.withFetchWord_cycles (s : State) (nbits w : Nat) :
    (State.withFetchWord s nbits w).cycles = s.cycles := rfl

@[simp] theorem State.withFetchWord_ir (s : State) (nbits w : Nat) :
    (State.withFetchWord s nbits w).ir = s.ir := rfl

@[simp] theorem State.withFetchWord_aluOut (s : State) (nbits w : Nat) :
    (State.withFetchWord s nbits w).aluOut = s.aluOut := rfl

/-! ### Construction -/

@[simp] theorem State.initial_params (p : Params) (program : List InstrWord) (regInit : RegFile) (irInit : InstrWord) (aluInit : Word) :
    (State.initial p program regInit irInit aluInit).params = p := rfl

@[simp] theorem State.initial_mem (p : Params) (program : List InstrWord) (regInit : RegFile) (irInit : InstrWord) (aluInit : Word) :
    (State.initial p program regInit irInit aluInit).mem = Memory.ofWords program := rfl

@[simp] theorem State.initial_regs (p : Params) (program : List InstrWord) (regInit : RegFile) (irInit : InstrWord) (aluInit : Word) :
    (State.initial p program regInit irInit aluInit).regs = regInit := rfl

@[simp] theorem State.initial_pc (p : Params) (program : List InstrWord) (regInit : RegFile) (irInit : InstrWord) (aluInit : Word) :
    (State.initial p program regInit irInit aluInit).pc = 0#64 := rfl

@[simp] theorem State.initial_phase (p : Params) (program : List InstrWord) (regInit : RegFile) (irInit : InstrWord) (aluInit : Word) :
    (State.initial p program regInit irInit aluInit).phase = .fetch := rfl

@[simp] theorem State.initial_halted (p : Params) (program : List InstrWord) (regInit : RegFile) (irInit : InstrWord) (aluInit : Word) :
    (State.initial p program regInit irInit aluInit).halted = false := rfl

@[simp] theorem State.initial_cycles (p : Params) (program : List InstrWord) (regInit : RegFile) (irInit : InstrWord) (aluInit : Word) :
    (State.initial p program regInit irInit aluInit).cycles = 0#64 := rfl

@[simp] theorem State.initial_ir (p : Params) (program : List InstrWord) (regInit : RegFile) (irInit : InstrWord) (aluInit : Word) :
    (State.initial p program regInit irInit aluInit).ir = irInit := rfl

@[simp] theorem State.initial_aluOut (p : Params) (program : List InstrWord) (regInit : RegFile) (irInit : InstrWord) (aluInit : Word) :
    (State.initial p program regInit irInit aluInit).aluOut = aluInit := rfl

/-- Construction answers the reset state over PROGRAM and the draws, where both are admissible, and only there. -/
theorem State.construct_eq_some_iff {p : Params} {program : List InstrWord} {regInit : RegFile}
    {irInit : InstrWord} {aluInit : Word} {s : State} :
    State.construct p program regInit irInit aluInit = some s ↔
      (AdmissibleProgram p program ∧ AdmissibleDraw p regInit aluInit) ∧ s = State.initial p program regInit irInit aluInit := by
  unfold State.construct
  split
  · next ha => exact ⟨fun h => ⟨ha, (Option.some.inj h).symm⟩, fun h => congrArg some h.2.symm⟩
  · next ha => exact ⟨fun h => (by cases h), fun h => absurd h.1 ha⟩

/-- A constructed core holds an admissible PROGRAM. -/
theorem State.loaded_of_construct {p : Params} {program : List InstrWord} {regInit : RegFile}
    {irInit : InstrWord} {aluInit : Word} {s : State}
    (h : State.construct p program regInit irInit aluInit = some s) : s.Loaded := by
  obtain ⟨⟨ha, -⟩, rfl⟩ := State.construct_eq_some_iff.mp h
  exact ⟨program, ha, rfl⟩

/-- Whether an admissible PROGRAM is held depends on the parameters and the memory alone. -/
theorem State.Loaded.of_eq {s t : State} (h : s.Loaded) (hp : t.params = s.params) (hm : t.mem = s.mem) :
    t.Loaded := by
  obtain ⟨program, ha, he⟩ := h
  exact ⟨program, by rwa [hp], by rw [hm, he]⟩

end Sys2Proof.Machine
end

