-- ==== Sys2Proof/Laws/Encoding.lean ====
section
/-! SUPPORT. The fields of encoded words, and the decoder's outputs for a word that decodes. -/

namespace Sys2Proof

/-! ### The fields a format lays out (R48, R49, R50) -/

theorem opcodeOf_encode_add (funct3 : BitVec 3) (rd rs1 rs2 : Selector) :
    opcodeOf (encode (.add funct3 rd rs1 rs2)) = opReg := by
  apply BitVec.eq_of_getLsbD_eq
  intro i hi
  simp only [opcodeOf, encode, BitVec.getLsbD_append, BitVec.getLsbD_extractLsb']
  interval_cases i <;> simp

theorem opcodeOf_encode_addi (rd rs1 : Selector) (imm : BitVec 12) :
    opcodeOf (encode (.addi rd rs1 imm)) = opImm := by
  apply BitVec.eq_of_getLsbD_eq
  intro i hi
  simp only [opcodeOf, encode, BitVec.getLsbD_append, BitVec.getLsbD_extractLsb']
  interval_cases i <;> simp

theorem opcodeOf_encode_jal (rd : Selector) (off : BitVec 21) :
    opcodeOf (encode (.jal rd off)) = opJal := by
  apply BitVec.eq_of_getLsbD_eq
  intro i hi
  simp only [opcodeOf, encode, BitVec.getLsbD_append, BitVec.getLsbD_extractLsb']
  interval_cases i <;> simp

/-! ### A JAL's unused selector outputs are bits of its immediate (R47, R50) -/

theorem immJOf_extract_rs1 (w : InstrWord) : (immJOf w).extractLsb' 15 5 = rs1Of w := by
  apply BitVec.eq_of_getLsbD_eq
  intro i hi
  simp only [immJOf, rs1Of, BitVec.getLsbD_append, BitVec.getLsbD_extractLsb']
  interval_cases i <;> simp

theorem immJOf_extract_rs2 (w : InstrWord) :
    (immJOf w).extractLsb' 1 4 ++ (immJOf w).extractLsb' 11 1 = rs2Of w := by
  apply BitVec.eq_of_getLsbD_eq
  intro i hi
  simp only [immJOf, rs2Of, BitVec.getLsbD_append, BitVec.getLsbD_extractLsb']
  interval_cases i <;> simp

theorem immIOf_extract_rs2 (w : InstrWord) : (immIOf w).extractLsb' 0 5 = rs2Of w := by
  apply BitVec.eq_of_getLsbD_eq
  intro i hi
  simp only [immIOf, rs2Of, BitVec.getLsbD_extractLsb']
  interval_cases i <;> simp

/-- Bit 0 of imm_J is 0 in every word (R50). -/
theorem immJOf_bit_zero (w : InstrWord) : (immJOf w).getLsbD 0 = false := by
  simp only [immJOf, BitVec.getLsbD_append]
  simp

namespace Machine

/-! ### The control record of an instruction is the decoder's output for its word (R60) -/

theorem decoder_of_add {w : InstrWord} {funct3 : BitVec 3} {rd rs1 rs2 : Selector} (p : Params)
    (h : decodeWord w = .ok (.add funct3 rd rs1 rs2)) : decoder p w = addControl rd rs1 rs2 := by
  unfold decodeWord at h
  split at h
  · next hop =>
    split at h
    · next hf =>
      cases h
      simp only [decoder, addControl, if_pos hop, if_pos hf]
    · cases h
  · split at h
    · split at h <;> cases h
    · split at h <;> cases h

theorem decoder_of_addi {w : InstrWord} {rd rs1 : Selector} {imm : BitVec 12} (p : Params)
    (h : decodeWord w = .ok (.addi rd rs1 imm)) : decoder p w = addiControl p rd rs1 imm := by
  unfold decodeWord at h
  split at h
  · split at h <;> cases h
  · next hnr =>
    split at h
    · next hop =>
      split at h
      · next hf =>
        cases h
        simp only [decoder, addiControl, if_neg hnr, if_pos hop, if_pos hf, immIOf_extract_rs2]
      · cases h
    · split at h <;> cases h

theorem decoder_of_jal {w : InstrWord} {rd : Selector} {off : BitVec 21} (p : Params)
    (h : decodeWord w = .ok (.jal rd off)) : decoder p w = jalControl p rd off := by
  unfold decodeWord at h
  split at h
  · split at h <;> cases h
  · next hnr =>
    split at h
    · split at h <;> cases h
    · next hni =>
      split at h
      · next hop =>
        cases h
        simp only [decoder, jalControl, if_neg hnr, if_neg hni, if_pos hop, immJOf_extract_rs1,
          immJOf_extract_rs2]
      · cases h

theorem decoder_of_error {w : InstrWord} {e : Reject} (p : Params)
    (h : decodeWord w = .error e) : decoder p w = illegalControl w := by
  unfold decodeWord at h
  split at h
  · next hop =>
    split at h
    · cases h
    · next hf => simp only [decoder, illegalControl, if_pos hop, if_neg hf]
  · next hnr =>
    split at h
    · next hop =>
      split at h
      · cases h
      · next hf => simp only [decoder, illegalControl, if_neg hnr, if_pos hop, if_neg hf]
    · next hni =>
      split at h
      · cases h
      · next hnj => simp only [decoder, illegalControl, if_neg hnr, if_neg hni, if_neg hnj]

/-- A JAL that decodes has an even offset, and so has every instruction that decodes a well-formed shape. -/
theorem wf_of_decodeWord {w : InstrWord} {i : Instr} (h : decodeWord w = .ok i) : i.wf = true := by
  cases i with
  | add => rfl
  | addi => rfl
  | jal rd off =>
    unfold decodeWord at h
    split at h
    · split at h <;> cases h
    · split at h
      · split at h <;> cases h
      · split at h
        · cases h
          simp only [Instr.wf, immJOf_bit_zero, Bool.not_false]
        · cases h

end Machine

end Sys2Proof
end

