-- ==== Sys2Proof/Laws/Memory.lean ====
section
/-! SUPPORT. The instruction memory: the canonical form is kept, a byte read after a byte written, and the
image of a program. -/

namespace Sys2Proof.Machine

theorem Memory.wf_nil : Memory.wf [] := List.Pairwise.nil

/-- Writing a byte adds at most its own address to the listed ones. -/
theorem Memory.mem_writeByte {m : Memory} {a : Nat} {b : Byte} {c : Host.Cell}
    (h : c ∈ m.writeByte a b) : c = (a, b) ∨ c ∈ m := by
  induction m with
  | nil => simpa [Memory.writeByte] using h
  | cons x m ih =>
    obtain ⟨k, v⟩ := x
    simp only [Memory.writeByte] at h
    split at h
    · simpa using h
    · split at h
      · rcases List.mem_cons.mp h with h | h
        · exact .inl h
        · exact .inr (List.mem_cons_of_mem _ h)
      · rcases List.mem_cons.mp h with h | h
        · exact .inr (h ▸ List.mem_cons_self)
        · exact (ih h).imp id (List.mem_cons_of_mem _)

/-- A byte write keeps the canonical form. -/
theorem Memory.writeByte_wf {m : Memory} (h : m.wf) (a : Nat) (b : Byte) : (m.writeByte a b).wf := by
  induction m with
  | nil => simp [Memory.writeByte, Memory.wf]
  | cons x m ih =>
    obtain ⟨k, v⟩ := x
    obtain ⟨hk, hm⟩ := List.pairwise_cons.mp h
    simp only [Memory.writeByte]
    split
    · next hlt =>
      refine List.pairwise_cons.mpr ⟨fun c hc => ?_, h⟩
      rcases List.mem_cons.mp hc with rfl | hc
      · exact hlt
      · exact lt_trans hlt (hk c hc)
    · split
      · next heq =>
        subst heq
        exact List.pairwise_cons.mpr ⟨hk, hm⟩
      · next hlt hne =>
        refine List.pairwise_cons.mpr ⟨fun c hc => ?_, ih hm⟩
        rcases Memory.mem_writeByte hc with rfl | hc
        · show k < a
          omega
        · exact hk c hc

theorem Memory.writeWord_wf {m : Memory} (h : m.wf) (index : Nat) (w : InstrWord) :
    (m.writeWord index w).wf :=
  Memory.writeByte_wf (Memory.writeByte_wf (Memory.writeByte_wf (Memory.writeByte_wf h _ _) _ _) _ _) _ _

/-- A byte read after a byte written: the value at its address, and every other address as before. -/
theorem Memory.readByte_writeByte (m : Memory) (a : Nat) (b : Byte) (a' : Nat) :
    (m.writeByte a b).readByte a' = if a' = a then some b else m.readByte a' := by
  induction m with
  | nil => simp [Memory.writeByte, Memory.readByte]
  | cons x m ih =>
    obtain ⟨k, v⟩ := x
    simp only [Memory.writeByte]
    split
    · simp only [Memory.readByte]
    · split
      · next heq =>
        subst heq
        simp only [Memory.readByte]
        split <;> rfl
      · next hne =>
        simp only [Memory.readByte, ih]
        by_cases h1 : a' = k
        · have h2 : a' ≠ a := by omega
          simp [h1, show ¬ k = a by omega]
        · simp [h1]

theorem wordOfBytes_byteOf (w : InstrWord) :
    wordOfBytes (byteOf w 0) (byteOf w 1) (byteOf w 2) (byteOf w 3) = w := by
  apply BitVec.eq_of_getLsbD_eq
  intro i hi
  simp only [wordOfBytes, byteOf, BitVec.getLsbD_append, BitVec.getLsbD_extractLsb']
  interval_cases i <;> simp

/-- A word read after it was loaded is the word. -/
theorem Memory.readWord_writeWord_same (m : Memory) (index : Nat) (w : InstrWord) :
    (m.writeWord index w).readWord index = some w := by
  simp [Memory.readWord, Memory.writeWord, Memory.readByte_writeByte, wordOfBytes_byteOf]

/-- Loading a word leaves every other word as it was. -/
theorem Memory.readWord_writeWord_other (m : Memory) (index : Nat) (w : InstrWord) {other : Nat}
    (h : other ≠ index) : (m.writeWord index w).readWord other = m.readWord other := by
  have e : ∀ j k, j < 4 → k < 4 → ¬ 4 * other + j = 4 * index + k := by omega
  have e0 := fun k hk => e 0 k (by omega) hk
  have f0 := fun j hj => e j 0 hj (by omega)
  simp only [Nat.add_zero] at e0 f0
  have h00 : ¬ 4 * other = 4 * index := fun e => h (by omega)
  simp [Memory.readWord, Memory.writeWord, Memory.readByte_writeByte, e, e0, f0, h00]

/-- Every cell of a program's image lies at or above its first word's address, and below its end. -/
theorem Memory.ofWordsFrom_range {index : Nat} {ws : List InstrWord} {c : Host.Cell}
    (h : c ∈ Memory.ofWordsFrom index ws) : 4 * index ≤ c.1 ∧ c.1 < 4 * (index + ws.length) := by
  induction ws generalizing index with
  | nil => simp [Memory.ofWordsFrom] at h
  | cons w ws ih =>
    simp only [Memory.ofWordsFrom, List.mem_cons] at h
    simp only [List.length_cons]
    rcases h with rfl | rfl | rfl | rfl | h
    all_goals first
      | (have := ih h; omega)
      | (simp only; omega)

/-- A program's image is in canonical form. -/
theorem Memory.ofWordsFrom_wf (index : Nat) (ws : List InstrWord) : (Memory.ofWordsFrom index ws).wf := by
  induction ws generalizing index with
  | nil => exact Memory.wf_nil
  | cons w ws ih =>
    have hr : ∀ c ∈ Memory.ofWordsFrom (index + 1) ws, 4 * (index + 1) ≤ c.1 :=
      fun c hc => (Memory.ofWordsFrom_range hc).1
    simp only [Memory.ofWordsFrom, Memory.wf, List.pairwise_cons, List.mem_cons]
    refine ⟨?_, ?_, ?_, fun c hc => ?_, ih _⟩
    · rintro c (rfl | rfl | rfl | hc) <;> first | (have := hr c hc; omega) | omega
    · rintro c (rfl | rfl | hc) <;> first | (have := hr c hc; omega) | omega
    · rintro c (rfl | hc) <;> first | (have := hr c hc; omega) | omega
    · have := hr c hc
      omega

/-- A program's image is four cells a word. -/
theorem Memory.programLength_ofWords (ws : List InstrWord) : (Memory.ofWords ws).programLength = ws.length := by
  have h : ∀ index, (Memory.ofWordsFrom index ws).length = 4 * ws.length := by
    induction ws with
    | nil => intro; rfl
    | cons w ws ih => intro index; simp [Memory.ofWordsFrom, ih]; omega
  simp [Memory.programLength, Memory.ofWords, h]

/-- An address no cell lists reads as nothing. -/
theorem Memory.readByte_eq_none {m : Memory} {a : Nat} (h : ∀ c ∈ m, c.1 ≠ a) : m.readByte a = none := by
  induction m with
  | nil => rfl
  | cons x m ih =>
    obtain ⟨k, v⟩ := x
    have hk : a ≠ k := fun e => h (k, v) List.mem_cons_self e.symm
    simp only [Memory.readByte, if_neg hk]
    exact ih fun c hc => h c (List.mem_cons_of_mem _ hc)

/-- The memory of a reset core is in canonical form. -/
theorem State.reset_mem_wf : State.reset.mem.wf := Memory.wf_nil

end Sys2Proof.Machine
end

