-- ==== Sys2Proof/Laws/PerInstr.lean ====
section
/-! SUPPORT. Per-instruction laws. The family TableRow: the word of an instruction lies in its row of
spec/opcode_table.json, that is, masked by the row's mask it is the row's match. -/

namespace Sys2Proof.Laws.TableRow

/-- The mask of the instruction's row of spec/opcode_table.json. -/
def mask : Instr → InstrWord
  | .add _ _ _ _ => 0xFE00007F
  | .addi _ _ _ => 0x0000707F
  | .jal _ _ => 0x0000007F

/-- The match of the instruction's row of spec/opcode_table.json. -/
def pattern : Instr → InstrWord
  | .add _ _ _ _ => 0x00000033
  | .addi _ _ _ => 0x00000013
  | .jal _ _ => 0x0000006F

/-- The instruction's word lies in its own row. -/
def Statement (i : Instr) : Prop := encode i &&& mask i = pattern i

theorem add (funct3 : BitVec 3) (rd rs1 rs2 : Selector) : Statement (.add funct3 rd rs1 rs2) := by
  apply BitVec.eq_of_getLsbD_eq
  intro k hk
  simp only [encode, mask, pattern, BitVec.getLsbD_and, BitVec.getLsbD_append]
  interval_cases k <;> simp [opReg]

theorem addi (rd rs1 : Selector) (imm : BitVec 12) : Statement (.addi rd rs1 imm) := by
  apply BitVec.eq_of_getLsbD_eq
  intro k hk
  simp only [encode, mask, pattern, BitVec.getLsbD_and, BitVec.getLsbD_append]
  interval_cases k <;> simp [opImm]

theorem jal (rd : Selector) (off : BitVec 21) : Statement (.jal rd off) := by
  apply BitVec.eq_of_getLsbD_eq
  intro k hk
  simp only [encode, mask, pattern, BitVec.getLsbD_and, BitVec.getLsbD_append]
  interval_cases k <;> simp [opJal]

end Sys2Proof.Laws.TableRow
end

