-- ==== Sys2Proof/Laws/Word.lean ====
section
/-! SUPPORT. Arithmetic modulo 2^XLEN: what `wrap`, `add` and `sub` compute, and that they compose. -/

namespace Sys2Proof

theorem Params.bits_dvd (p : Params) : 2 ^ p.xlen.bits ∣ 2 ^ 64 := by
  obtain ⟨x, _, _⟩ := p
  cases x <;> simp [Xlen.bits]

/-- A program of 2^(XLEN-2) words fills the address space (R3, R41). -/
theorem Params.four_mul_pow_bits (p : Params) : 4 * 2 ^ (p.xlen.bits - 2) = 2 ^ p.xlen.bits := by
  have h : 2 ≤ p.xlen.bits := by
    cases p.xlen <;> simp [Xlen.bits]
  obtain ⟨k, hk⟩ := Nat.exists_eq_add_of_le h
  rw [hk, pow_add, Nat.add_sub_cancel_left]
  rfl

@[simp] theorem Params.wrap_toNat (p : Params) (w : Word) :
    (p.wrap w).toNat = w.toNat % 2 ^ p.xlen.bits := by
  obtain ⟨x, _, _⟩ := p
  cases x <;> simp [Params.wrap, Xlen.bits] <;> omega

theorem Params.add_toNat (p : Params) (a b : Word) :
    (p.add a b).toNat = (a.toNat + b.toNat) % 2 ^ p.xlen.bits := by
  simp only [Params.add, Params.wrap_toNat, BitVec.toNat_add]
  exact Nat.mod_mod_of_dvd _ p.bits_dvd

/-- Two values have one image when they agree modulo 2^XLEN. -/
theorem Params.wrap_eq_wrap_iff (p : Params) (a b : Word) :
    p.wrap a = p.wrap b ↔ a.toNat % 2 ^ p.xlen.bits = b.toNat % 2 ^ p.xlen.bits := by
  rw [← BitVec.toNat_inj, Params.wrap_toNat, Params.wrap_toNat]

@[simp] theorem Params.wrap_wrap (p : Params) (w : Word) : p.wrap (p.wrap w) = p.wrap w := by
  simp [Params.wrap_eq_wrap_iff]

/-- A container holds an XLEN-bit value when the number in it is below 2^XLEN. -/
theorem Params.fits_iff (p : Params) (w : Word) : p.fits w ↔ w.toNat < 2 ^ p.xlen.bits := by
  rw [Params.fits, ← BitVec.toNat_inj, Params.wrap_toNat]
  exact ⟨fun h => h ▸ Nat.mod_lt _ (by positivity), Nat.mod_eq_of_lt⟩

theorem Params.wrap_fits (p : Params) (w : Word) : p.fits (p.wrap w) := p.wrap_wrap w

theorem Params.add_fits (p : Params) (a b : Word) : p.fits (p.add a b) := p.wrap_fits _

theorem Params.sub_fits (p : Params) (a b : Word) : p.fits (p.sub a b) := p.wrap_fits _

theorem Params.zero_fits (p : Params) : p.fits 0#64 := by
  rw [Params.fits, ← BitVec.toNat_inj, Params.wrap_toNat]
  simp

theorem Params.wrap_of_fits (p : Params) {w : Word} (h : p.fits w) : p.wrap w = w := h

theorem Params.wrap_add_wrap_left (p : Params) (a b : Word) : p.wrap (p.wrap a + b) = p.wrap (a + b) := by
  simp only [Params.wrap_eq_wrap_iff, BitVec.toNat_add, Params.wrap_toNat,
    Nat.mod_mod_of_dvd _ p.bits_dvd, Nat.mod_add_mod]

theorem Params.wrap_add_wrap_right (p : Params) (a b : Word) : p.wrap (a + p.wrap b) = p.wrap (a + b) := by
  rw [BitVec.add_comm, Params.wrap_add_wrap_left, BitVec.add_comm]

theorem Params.add_wrap_left (p : Params) (a b : Word) : p.add (p.wrap a) b = p.add a b :=
  p.wrap_add_wrap_left a b

theorem Params.add_wrap_right (p : Params) (a b : Word) : p.add a (p.wrap b) = p.add a b :=
  p.wrap_add_wrap_right a b

theorem Params.add_add (p : Params) (a b c : Word) : p.add (p.add a b) c = p.add a (b + c) := by
  simp only [Params.add, Params.wrap_add_wrap_left, BitVec.add_assoc]

@[simp] theorem Params.add_zero_of_add (p : Params) (a b : Word) : p.add (p.add a b) 0#64 = p.add a b := by
  rw [Params.add_add]; simp

/-- The one compensation of R62: adding off_J - 4 to the advanced PC gives A + off_J. -/
theorem jal_compensation (p : Params) (a : Word) (off : BitVec 21) :
    p.add (p.add a 4#64) (jalBranchOffset p off) = p.add a (jalOffset p off) := by
  rw [Params.add_add, jalBranchOffset, Params.sub, Params.add, Params.add,
    ← BitVec.add_assoc, Params.wrap_add_wrap_right]
  congr 1
  rw [BitVec.add_assoc, BitVec.add_comm 4#64, BitVec.sub_add_cancel]

/-- When branch_offset is 0 the advanced PC is the target already (R62, R87). -/
theorem jal_target_of_zero_offset (p : Params) (a : Word) (off : BitVec 21)
    (h : jalBranchOffset p off = 0#64) : p.add a 4#64 = p.add a (jalOffset p off) := by
  rw [← jal_compensation, h, Params.add_zero_of_add]

end Sys2Proof
end

