-- ==== Sys2Proof/Laws/Registers.lean ====
section
/-! SUPPORT. The register file and the ALU, case by case. -/

namespace Sys2Proof.Machine

theorem isMapped_iff (sel : Selector) : isMapped sel = true ↔ 1 ≤ sel.toNat ∧ sel.toNat ≤ 30 := by
  simp [isMapped]

/-- Selectors 0 and 31 read as 0 (R12). -/
theorem RegFile.read_of_unmapped (r : RegFile) {sel : Selector} (h : isMapped sel = false) :
    r.read sel = 0#64 := by
  simp [RegFile.read, h]

/-- A write that is not enabled changes nothing (R14). -/
@[simp] theorem RegFile.write_disabled (r : RegFile) (sel : Selector) (v : Word) :
    r.write sel v false = r := by
  simp [RegFile.write]

/-- A write to selector 0 or 31 changes nothing (R14). -/
theorem RegFile.write_unmapped (r : RegFile) {sel : Selector} (h : isMapped sel = false) (v : Word)
    (en : Bool) : r.write sel v en = r := by
  simp [RegFile.write, h]

/-- A register just written reads as the value written (R12, R14). -/
theorem RegFile.read_write_same (r : RegFile) {sel : Selector} (h : isMapped sel = true) (v : Word) :
    (r.write sel v true).read sel = v := by
  have hb := (isMapped_iff sel).mp h
  have : sel.toNat - 1 < 30 := by omega
  simp [RegFile.read, RegFile.write, h, this]

/-- A write leaves every other register as it was (R14, R15). -/
theorem RegFile.read_write_other (r : RegFile) {sel sel' : Selector} (hne : sel' ≠ sel) (v : Word)
    (en : Bool) : (r.write sel v en).read sel' = r.read sel' := by
  cases hm : isMapped sel' with
  | false => simp [RegFile.read, hm]
  | true =>
    cases hw : isMapped sel with
    | false => simp [RegFile.write, hw]
    | true =>
      have h1 := (isMapped_iff sel).mp hw
      have h2 := (isMapped_iff sel').mp hm
      have hn : sel.toNat ≠ sel'.toNat := fun e => hne (BitVec.eq_of_toNat_eq e.symm)
      have : sel.toNat - 1 ≠ sel'.toNat - 1 := by omega
      cases en <;> simp [RegFile.read, RegFile.write, hm, hw, this]

/-- Selectors 1 to 30 read their storage cells (R12). -/
theorem RegFile.read_cell (r : RegFile) (k : Fin 30) : r.read (BitVec.ofNat 5 (k + 1)) = r[k] := by
  have hk : (BitVec.ofNat 5 (k.val + 1)).toNat = k + 1 := by simp; omega
  have hm : isMapped (BitVec.ofNat 5 (k.val + 1)) = true := (isMapped_iff _).mpr (by omega)
  simp [RegFile.read, hm, hk]

/-- A selector that names a cell is one of those thirty (R11). -/
theorem exists_cell_of_isMapped {sel : Selector} (h : isMapped sel = true) :
    ∃ k : Fin 30, sel = BitVec.ofNat 5 (k + 1) := by
  have hb := (isMapped_iff sel).mp h
  refine ⟨⟨sel.toNat - 1, by omega⟩, BitVec.eq_of_toNat_eq ?_⟩
  simp; omega

/-- Every cell holds an XLEN-bit value exactly when every selector reads one (R12, R32). -/
theorem RegFile.fits_iff (p : Params) (r : RegFile) :
    (∀ k : Fin 30, p.fits r[k]) ↔ ∀ sel, p.fits (r.read sel) := by
  refine ⟨fun h sel => ?_, fun h k => r.read_cell k ▸ h _⟩
  cases hm : isMapped sel with
  | false => rw [r.read_of_unmapped hm]; exact p.zero_fits
  | true =>
    obtain ⟨k, rfl⟩ := exists_cell_of_isMapped hm
    rw [r.read_cell k]
    exact h k

/-- The enabled ALU adds (R25). -/
@[simp] theorem alu_enabled (p : Params) (op : AluOp) (a b : Word) : alu p true op a b = p.add a b := by
  cases op; rfl

end Sys2Proof.Machine
end

