-- ==== Sys2Proof/Laws/Step.lean ====
section
/-! SUPPORT. What one step can do, said once. -/

namespace Sys2Proof.Machine

/-- The word in flight runs on the decoder's outputs for it, whether or not it is legal (R60, R79). -/
theorem runInFlight_eq (s : State) : runInFlight s = .next (cycle (decoder s.params s.ir) s) := by
  unfold runInFlight
  split
  · next i h =>
    cases i with
    | add => simp only [exec, execAdd, decoder_of_add _ h]
    | addi => simp only [exec, execAddi, decoder_of_addi _ h]
    | jal => simp only [exec, execJal, decoder_of_jal _ h]
  · next e h => simp only [execIllegal, decoder_of_error _ h]

/-- A halted core's step changes nothing (R69). -/
theorem step_of_halted {s : State} (h : s.halted = true) : step s = .next s := by
  simp [step, h]

/-- The step of a core that is not halted, once what it presents is known. -/
theorem step_of_present {s s' : State} (h : s.halted = false) (hp : present s = some s') :
    step s = .next (cycle (decoder s'.params s'.ir) s') := by
  simp [step, h, hp, runInFlight_eq]

theorem step_of_present_none {s : State} (h : s.halted = false) (hp : present s = none) :
    step s = .fault .fetchOutOfRange := by
  simp [step, h, hp]

/-- Outside FETCH nothing is latched. -/
theorem present_of_not_fetch {s : State} (h : s.phase ≠ .fetch) : present s = some s := by
  unfold present
  cases hp : s.phase <;> first | rfl | exact absurd hp h

theorem present_of_fetch {s : State} {w : InstrWord} (h : s.phase = .fetch)
    (hw : s.mem.imem s.pc = some w) : present s = some { s with ir := w } := by
  simp [present, h, hw]

/-- What presenting can change: `ir`, in FETCH, to the word at pc. -/
theorem present_cases {s s' : State} (h : present s = some s') :
    (s.phase = .fetch ∧ ∃ w, s.mem.imem s.pc = some w ∧ s' = { s with ir := w }) ∨
      (s.phase ≠ .fetch ∧ s' = s) := by
  unfold present at h
  cases hp : s.phase with
  | fetch =>
    rw [hp] at h
    cases hw : s.mem.imem s.pc with
    | none => simp [hw] at h
    | some w => exact .inl ⟨rfl, w, rfl, by simpa [hw] using h.symm⟩
  | decode => rw [hp] at h; exact .inr ⟨by simp, (Option.some.inj h).symm⟩
  | memAccess => rw [hp] at h; exact .inr ⟨by simp, (Option.some.inj h).symm⟩
  | execute => rw [hp] at h; exact .inr ⟨by simp, (Option.some.inj h).symm⟩
  | writeback => rw [hp] at h; exact .inr ⟨by simp, (Option.some.inj h).symm⟩

/-- Everything a step that answers a next state can be: a halted core's, or one phase of the word presented. -/
theorem step_next_cases {s t : State} (h : step s = .next t) :
    (s.halted = true ∧ t = s) ∨
      (s.halted = false ∧ ∃ s', present s = some s' ∧ t = cycle (decoder s'.params s'.ir) s') := by
  cases hh : s.halted with
  | true =>
    rw [step_of_halted hh] at h
    exact .inl ⟨rfl, (Host.Outcome.next.inj h).symm⟩
  | false =>
    cases hp : present s with
    | none => rw [step_of_present_none hh hp] at h; cases h
    | some s' =>
      rw [step_of_present hh hp] at h
      exact .inr ⟨rfl, s', rfl, (Host.Outcome.next.inj h).symm⟩

/-- What every step keeps, every run keeps. -/
theorem steps_keep {P : State → Prop} (hstep : ∀ s t, P s → step s = .next t → P t) {n : Nat} {s t : State}
    (hs : P s) (h : steps n s = .next t) : P t := by
  induction n generalizing s with
  | zero => exact Host.Outcome.next.inj h ▸ hs
  | succ n ih =>
    cases hu : step s with
    | next u => exact ih (hstep s u hs hu) (by simpa only [steps, hu] using h)
    | fault f => simp only [steps, hu] at h; cases h
    | refused r => simp only [steps, hu] at h; cases h

/-! ### One phase, by the phase the state is in -/

theorem cycle_of_fetch {d : DecodedControl} {s : State} (h : s.phase = .fetch) : cycle d s = fetchPhase s := by
  simp [cycle, h]

theorem cycle_of_decode {d : DecodedControl} {s : State} (h : s.phase = .decode) :
    cycle d s = decodePhase d s := by
  simp [cycle, h]

theorem cycle_of_memAccess {d : DecodedControl} {s : State} (h : s.phase = .memAccess) :
    cycle d s = memAccessPhase s := by
  simp [cycle, h]

theorem cycle_of_execute {d : DecodedControl} {s : State} (h : s.phase = .execute) :
    cycle d s = executePhase d s := by
  simp [cycle, h]

theorem cycle_of_writeback {d : DecodedControl} {s : State} (h : s.phase = .writeback) :
    cycle d s = writebackPhase d s := by
  simp [cycle, h]

/-- No phase changes the memory or the parameters (R34, R44). -/
theorem cycle_keeps_mem_params (d : DecodedControl) (s : State) :
    (cycle d s).mem = s.mem ∧ (cycle d s).params = s.params := by
  unfold cycle
  split <;> simp

end Sys2Proof.Machine
end

