-- ==== Sys2Proof/Tests/Slice0.lean ====
section
/-! SUPPORT. The model's own tests. The expected results come from spec/95_test_vectors.md (E, V and P below are
its rows) or from the rule a test names. Then one witness for each obligation that has hypotheses. -/

namespace Sys2Proof.Machine.Tests

/-- What a step answers, if it is a next state. -/
def nextOf (o : Host.Outcome State Fault Refusal) : Option State :=
  match o with
  | .next s => some s
  | .fault _ => none
  | .refused _ => none

/-- A core with the decided parameters, a program, and 0 in every register and latch. -/
def core (program : List InstrWord) : State :=
  State.initial Params.decided program (Vector.replicate 30 0#64) 0#32 0#64

/-- The core after its first word was latched, at address `a`, about to perform `phase`. -/
def inFlight (w : InstrWord) (a : Word) (phase : Phase) : State :=
  { core [w] with ir := w, pc := a + 4#64, phase := phase }

/-- A state with one register set. -/
def setReg (s : State) (sel : Selector) (v : Word) : State := { s with regs := s.regs.write sel v true }

/-! ### WellFormed smoke: the one check, and a term it refuses -/

theorem test_wf_refuses_odd_offset : (Instr.jal 1 0x000001).wf = false := by decide
theorem test_wf_accepts_even_offset : (Instr.jal 1 0x1FFFFE).wf = true := by decide

/-! ### Decoding: words written out from the formats of R48 to R50 -/

theorem test_decode_add : decodeWord 0b0000000_01011_01010_000_01010_0110011#32 = .ok (.add 0 10 10 11) := by decide
theorem test_decode_add_funct3 : decodeWord 0x00B54533#32 = .ok (.add 4 10 10 11) := by decide -- V8
theorem test_decode_addi : decodeWord 0b000001000010_00000_000_01011_0010011#32 = .ok (.addi 11 0 0x42) := by decide
theorem test_decode_jal_slices : -- imm_J[20] = w[31], [10:1] = w[30:21], [11] = w[20], [19:12] = w[19:12]
    decodeWord 0b1_0000000001_0_10000000_00101_1101111#32 = .ok (.jal 5 0b1_10000000_0_0000000001_0) := by decide
theorem test_decode_jal_bit11 :
    decodeWord 0b0_0000000000_1_00000000_00101_1101111#32 = .ok (.jal 5 0x800) := by decide
theorem test_decode_sub_illegal : decodeWord 0x40B50533#32 = .error .regFunct7 := by decide -- V10
theorem test_decode_slti_illegal : decodeWord 0x00152513#32 = .error .immFunct3 := by decide -- V12
theorem test_decode_jalr_illegal : decodeWord 0x000000E7#32 = .error .opcode := by decide -- V17
theorem test_decode_truncated : decode [0x33#8, 0#8, 0#8] = .error .truncated := by decide

/-- V1 to V7, the offsets of the JAL words. -/
theorem test_jal_offsets :
    (immJOf 0xFFDFF06F#32).toInt = -4 ∧ (immJOf 0x0000006F#32).toInt = 0 ∧ (immJOf 0x0040006F#32).toInt = 4 ∧
    (immJOf 0x008000EF#32).toInt = 8 ∧ (immJOf 0x7FFFF0EF#32).toInt = 1048574 ∧
    (immJOf 0x800000EF#32).toInt = -1048576 ∧ (immJOf 0x0020006F#32).toInt = 2 := by decide

/-- E5, E6, V1, V4: the decoder's outputs. -/
theorem test_decoder_outputs :
    (decoder Params.decided 0x00B50533#32).regwrite = true ∧ (decoder Params.decided 0x04200593#32).imm = 0x42#64 ∧
    (decoder Params.decided 0xFFDFF06F#32).branchOffset = 0xFFFFFFFFFFFFFFF8#64 ∧
    (decoder Params.decided 0xFFDFF06F#32).aluEn = false ∧
    (decoder Params.decided 0x008000EF#32).branchOffset = 4#64 ∧ (decoder Params.decided 0x008000EF#32).src1 = .pc :=
  by decide

/-! ### Encoding: the words of spec/95_test_vectors.md -/

theorem test_encode_add : encode (.add 0 3 1 2) = 0x002081B3#32 := by decide -- V30
theorem test_encode_addi : encode (.addi 1 2 0x800) = 0x80010093#32 := by decide -- V38
theorem test_encode_jal : encode (.jal 1 0x0FFFFE) = 0x7FFFF0EF#32 := by decide -- V5
theorem test_table_word : decodeTableWord 32 0x04200593 = some (.addi 11 0 0x42) := by decide -- E6

/-! ### Components: E1 to E4, V13 to V15, V20 to V25, V60, V61 -/

theorem test_read_after_write_x30 : (core []).regs.write 30 0xAB#64 true |>.read 30 |> (· = 0xAB#64) := by decide
theorem test_write_x31_dropped : ((core []).regs.write 31 5#64 true).read 31 = 0#64 := by decide
theorem test_write_disabled : ((core []).regs.write 7 9#64 false).read 7 = 0#64 := by decide
theorem test_alu_wraps : alu Params.decided true .add 0xFFFFFFFFFFFFFFFF#64 1#64 = 0#64 := by decide
theorem test_alu_wraps_32 : alu { Params.decided with xlen := .x32 } true .add 0xFFFFFFFF#64 1#64 = 0#64 := by decide
theorem test_imm_zero : addiImm Params.decided 0xFFF#12 = 0xFFF#64 := by decide
theorem test_imm_sign : addiImm { Params.decided with immExt := .sign } 0x800#12 = 0xFFFFFFFFFFFFF800#64 := by decide
theorem test_imm_sign_32 : -- V43
    addiImm { Params.decided with xlen := .x32, immExt := .sign } 0xFFF#12 = 0xFFFFFFFF#64 := by decide
theorem test_imem_low_bits : (core [0x13#32, 0x6F#32]).mem.imem 5#64 = some 0x6F#32 := by decide -- V60
theorem test_imem_out_of_range : (core [0x13#32, 0x6F#32]).mem.imem 8#64 = none := by decide -- V61
theorem test_little_endian : (core [0x04200593#32]).mem.readByte 0 = some 0x93#8 := by decide -- R39
theorem test_write_byte_canonical : Memory.writeByte [(1, 7#8), (5, 8#8)] 3 9#8 = [(1, 7#8), (3, 9#8), (5, 8#8)] := by
  decide
theorem test_stage_numbers : Phase.fetch.number = 0 ∧ Phase.writeback.number = 4 := by decide -- R19
theorem test_cause : Exception.cause .illegalInstruction = 0 := by decide -- R91

/-! ### One step of each instruction, in the phase where it shows -/

/-- V30: M + 1 wraps to 0 in EXECUTE. -/
theorem test_add_execute_wraps :
    (nextOf (step (setReg (setReg (inFlight 0x002081B3#32 0#64 .execute) 1 0xFFFFFFFFFFFFFFFF#64) 2 1#64))).map
      (fun t => (t.aluOut, t.pc, t.phase)) = some (0#64, 4#64, .writeback) := by decide

/-- V31 and R86: WRITEBACK writes rd, counts, and leaves pc. -/
theorem test_add_writeback :
    (nextOf (step { inFlight 0x001080B3#32 0#64 .writeback with aluOut := 7#64 })).map
      (fun t => (t.regs.read 1, t.regs.read 2, t.cycles, t.pc)) = some (7#64, 0#64, 1#64, 4#64) := by decide

/-- V39: ADDI with 0xFFF adds 4095 under `zero`, and subtracts 1 under `sign`. -/
theorem test_addi_execute_zero_ext :
    (nextOf (step (setReg (inFlight 0xFFF10093#32 0#64 .execute) 2 1#64))).map State.aluOut = some 0x1000#64 := by decide
theorem test_addi_execute_sign_ext :
    (nextOf (step (setReg { inFlight 0xFFF10093#32 0#64 .execute with
      params := { Params.decided with immExt := .sign } } 2 1#64))).map State.aluOut = some 0#64 := by decide

/-- V57: the lowest offset from 0x100000 lands on 0 and links 0x100004. -/
theorem test_jal_execute :
    (nextOf (step (inFlight 0x800000EF#32 0x100000#64 .execute))).map (fun t => (t.pc, t.aluOut)) =
      some (0#64, 0x100004#64) := by decide

/-- V52 under JAL_LINK = target: the link is the target. -/
theorem test_jal_execute_link_target :
    (nextOf (step { inFlight 0x008000EF#32 8#64 .execute with
      params := { Params.decided with jalLink := .target } })).map (fun t => (t.pc, t.aluOut)) =
      some (0x10#64, 0x10#64) := by decide

/-- V62 (k = 1): the FETCH and the DECODE step of an illegal word. -/
theorem test_illegal_fetch :
    (nextOf (step (core [0#32]))).map State.snapshot =
      some { (core [0#32]).snapshot with pc := 4#64, stage := .decode } := by decide
theorem test_illegal_decode :
    (nextOf (step (inFlight 0#32 0#64 .decode))).map State.snapshot =
      some { (core [0#32]).snapshot with pc := 4#64, stage := .memAccess, halted := true } := by decide

/-- P5: a fetch past the end of the program faults. -/
theorem test_fetch_past_end : step { core [0x00700093#32] with pc := 4#64 } = .fault .fetchOutOfRange := by rfl

/-- The first step after reset, with each row's word loaded, fetches it. -/
theorem test_fetch_word_after_reset :
    [0x00000033, 0x00000013, 0x0000006F].map
      (fun w => (nextOf (step (State.reset.withFetchWord 32 w))).map fun t => (t.ir.toNat, t.pc, t.phase)) =
      [some (0x33, 4#64, .decode), some (0x13, 4#64, .decode), some (0x6F, 4#64, .decode)] := by decide

/-- Stepping the second of two cores leaves the first. -/
theorem test_step_core :
    (match stepCore [core [0x13#32], core [0x6F#32]] 1 with
      | .next cs => cs.map fun c => c.phase.number
      | .fault _ => []
      | .refused _ => []) = [0, 1] := by decide

/-! ### Assembler conventions (R66 to R68) -/

theorem test_asm_jal : (asmJal 0 (-4)).map encode = some 0xFFDFF06F#32 := by decide -- R66
theorem test_asm_addi : (asmAddi AbiName.a1.selector AbiName.zero.selector 0x42).map encode = some 0x04200593#32 := by
  decide -- E6
theorem test_asm_nop : Pseudo.nop.expand.map encode = some 0x00000013#32 := by decide -- R68
theorem test_asm_out_of_range : asmJal 0 3 = none ∧ asmJal 0 1048576 = none ∧ asmAddi 1 2 4096 = none ∧ asmAddi 1 2 (-2049) = none := by decide

/-! ### Witnesses: states and operands that meet the hypotheses of the obligations

`addCore`, `addiCore`, `jalCore` and `badCore` are cores about to fetch an ADD, an ADDI, a JAL and an illegal
word. -/

def addCore : State := core [0x002081B3#32]
def addiCore : State := core [0xFFF10093#32]
def jalCore : State := core [0x008000EF#32]
def badCore : State := core [0#32]

theorem witness_DecodeOfEncodeGivesTheInstruction : (Instr.jal 31 0x1FFFFE).wf = true := by decide

theorem witness_LegalWordIsItsInstructionsEncoding :
    decodeWord 0xFFDFF06F#32 = .ok (.jal 0 0x1FFFFC) ∧ decodeWord 0xFFF10093#32 = .ok (.addi 1 2 0xFFF) ∧
    decodeWord 0x00B54533#32 = .ok (.add 4 10 10 11) := by decide

theorem witness_LegalWordsAreTheOpcodeTableRows :
    0x00B54533#32 &&& 0xFE00007F#32 = 0x33#32 ∧ 0xFFF10093#32 &&& 0x707F#32 = 0x13#32 ∧
    0xFFDFF06F#32 &&& 0x7F#32 = 0x6F#32 ∧ (0#32 &&& 0x3#32 ≠ 0x3#32) := by decide

theorem witness_AddiImmediateWidening :
    Params.decided.immExt = .zero ∧ ({ Params.decided with immExt := .sign } : Params).immExt = .sign ∧
    (0x7FF#12).getLsbD 11 = false ∧ (0x800#12).getLsbD 11 = true := by decide

theorem witness_DecoderOutputsOfEveryWord :
    (Instr.jal 1 0x100000).wf = true ∧ (1#5 ≠ 0#5) ∧ (Instr.jal 0 0x0FFFFE).wf = true ∧
    decodeWord 0x40B50533#32 = .error .regFunct7 ∧ decodeWord 0x00152513#32 = .error .immFunct3 ∧
    decodeWord 0xFFFFFFFF#32 = .error .opcode := by decide

theorem witness_JalImmediateSlices : (12 ≤ 12 ∧ 19 ≤ 19) ∧ (1 ≤ 1 ∧ 10 ≤ 10) ∧ ¬ (12 ≤ 11) ∧ ¬ (11 ≤ 10) := by decide

theorem witness_GuardedWritePort :
    ((1#5).toNat = (0 : Fin 30) + 1 ∧ (30#5).toNat = (29 : Fin 30) + 1) ∧
    ∀ k : Fin 30, (31#5).toNat ≠ k + 1 ∧ (0#5).toNat ≠ k + 1 := by decide

theorem witness_RegisterFileReadAfterWrite :
    (1 ≤ (1#5).toNat ∧ (30#5).toNat ≤ 30) ∧ ¬ ((31#5).toNat ≤ 30) ∧ ¬ (1 ≤ (0#5).toNat) := by decide

theorem witness_FetchReadsTheProgramOrFaults :
    ({ addCore with pc := 4#64 } : State).mem = Memory.ofWords [0x002081B3#32] ∧ addCore.halted = false ∧
    addCore.phase = .fetch ∧ [0x002081B3#32].length ≤ ({ addCore with pc := 4#64 } : State).pc.toNat / 4 := by decide

theorem witness_FetchIgnoresTheLowAddressBits : 2 ^ 62 - 1 < 2 ^ 62 ∧ 3 < 4 ∧ 0 < 4 := by decide

theorem witness_StepFaultsExactlyOnFetchOutOfRange :
    step { addCore with pc := 4#64 } = .fault .fetchOutOfRange ∧ addCore.halted = false ∧
    addCore.phase = .fetch ∧ addCore.mem.imem 4#64 = none := ⟨rfl, by decide⟩

theorem witness_StepRunsTheDecodedInstruction :
    (addCore.halted = false ∧ addCore.phase = .fetch ∧
      addCore.mem.readByte (4 * (addCore.pc.toNat / 4)) = some 0xB3#8 ∧
      addCore.mem.readByte (4 * (addCore.pc.toNat / 4) + 1) = some 0x81#8 ∧
      addCore.mem.readByte (4 * (addCore.pc.toNat / 4) + 2) = some 0x20#8 ∧
      addCore.mem.readByte (4 * (addCore.pc.toNat / 4) + 3) = some 0x00#8 ∧
      decode [0xB3#8, 0x81#8, 0x20#8, 0x00#8] = .ok (.add 0 3 1 2, [])) ∧
    (inFlight 0x008000EF#32 0#64 .execute).halted = false ∧ (inFlight 0x008000EF#32 0#64 .execute).phase ≠ .fetch ∧
    decodeWord (inFlight 0x008000EF#32 0#64 .execute).ir = .ok (.jal 1 8) := by decide

/-- A step out of each phase, of a core that is not halted: for PhaseAdvancesAndWritebackRetires,
ControlLinesGateEveryWrite, PcIsWrittenInFetchAndExecuteOnly, HaltLatchIsSetOnlyByDecodingAnIllegalWord. -/
theorem witness_StepsOutOfEveryPhase :
    (addCore.halted = false ∧ addCore.phase = .fetch ∧ ∃ t, step addCore = .next t) ∧
    (∃ t, step (inFlight 0x002081B3#32 0#64 .decode) = .next t) ∧
    (∃ t, step (inFlight 0#32 0#64 .decode) = .next t) ∧
    (∃ t, step (inFlight 0x002081B3#32 0#64 .memAccess) = .next t) ∧
    (∃ t, step (inFlight 0x008000EF#32 0#64 .execute) = .next t) ∧
    (∃ t, step (inFlight 0x0040006F#32 0#64 .execute) = .next t) ∧
    (decoder Params.decided 0x008000EF#32).branchOffset ≠ 0#64 ∧
    (decoder Params.decided 0x0040006F#32).branchOffset = 0#64 ∧
    ∃ t, step (inFlight 0x002081B3#32 0#64 .writeback) = .next t :=
  ⟨⟨rfl, rfl, _, rfl⟩, ⟨_, rfl⟩, ⟨_, rfl⟩, ⟨_, rfl⟩, ⟨_, rfl⟩, ⟨_, rfl⟩, by decide, by decide, ⟨_, rfl⟩⟩

theorem witness_FetchStepLatchesAndAdvances :
    addCore.halted = false ∧ addCore.phase = .fetch ∧ addCore.mem.imem addCore.pc = some 0x002081B3#32 ∧
    ({ addCore with pc := 4#64 } : State).mem.imem 4#64 = none := by decide

theorem witness_MemAccessStepOnlyAdvances :
    (inFlight 0x002081B3#32 0#64 .memAccess).halted = false ∧
    (inFlight 0x002081B3#32 0#64 .memAccess).phase = .memAccess := by decide

/-- A state in each phase: for AddRunsInEveryPhase, AddiRunsInEveryPhase and JalRunsInEveryPhase. -/
theorem witness_StateInEveryPhase :
    (inFlight 0x002081B3#32 0#64 .fetch).phase = .fetch ∧ (inFlight 0x002081B3#32 0#64 .decode).phase = .decode ∧
    (inFlight 0x002081B3#32 0#64 .memAccess).phase = .memAccess ∧
    (inFlight 0x002081B3#32 0#64 .execute).phase = .execute ∧
    (inFlight 0x002081B3#32 0#64 .writeback).phase = .writeback := by decide

theorem witness_AddNetEffect :
    addCore.halted = false ∧ addCore.phase = .fetch ∧
    addCore.mem.imem addCore.pc = some (encode (.add 0 3 1 2)) ∧
    (core [0x00208FB3#32]).mem.imem (core []).pc = some (encode (.add 0 31 1 2)) := by decide

theorem witness_AddiNetEffect :
    addiCore.halted = false ∧ addiCore.phase = .fetch ∧
    addiCore.mem.imem addiCore.pc = some (encode (.addi 1 2 0xFFF)) := by decide

theorem witness_JalNetEffect :
    (Instr.jal 1 8).wf = true ∧ jalCore.halted = false ∧ jalCore.phase = .fetch ∧
    jalCore.mem.imem jalCore.pc = some (encode (.jal 1 8)) ∧
    (core [0x0040006F#32]).mem.imem (core []).pc = some (encode (.jal 0 4)) ∧
    (core [0x00800FEF#32]).mem.imem (core []).pc = some (encode (.jal 31 8)) := by decide

theorem witness_InstructionsChangeOnlyTheirDestination :
    (∃ t, exec (.add 0 3 1 2) (inFlight 0x002081B3#32 0#64 .writeback) = .next t) ∧
    (∃ t, exec (.addi 1 2 0xFFF) (inFlight 0xFFF10093#32 0#64 .execute) = .next t) ∧
    ∃ t, exec (.jal 1 8) (inFlight 0x008000EF#32 0#64 .execute) = .next t := ⟨⟨_, rfl⟩, ⟨_, rfl⟩, ⟨_, rfl⟩⟩

theorem witness_WriteToAnUnmappedSelectorIsANop :
    (∀ rd off, Instr.addi 0 0 0 ≠ .jal rd off) ∧ (Instr.addi 0 0 0).dest = 0#5 ∧ (Instr.add 0 31 1 2).dest = 31#5 ∧
    (core [0x00000013#32]).halted = false ∧ (core [0x00000013#32]).phase = .fetch ∧
    (core [0x00000013#32]).mem.imem (core []).pc = some (encode (.addi 0 0 0)) :=
  ⟨fun _ _ h => (by cases h), by decide⟩

theorem witness_SnapshotAfterEachStepOfAnInstruction :
    (Instr.jal 1 8).wf = true ∧ jalCore.halted = false ∧ jalCore.phase = .fetch ∧
    jalCore.mem.imem jalCore.pc = some (encode (.jal 1 8)) := by decide

theorem witness_IllegalWordHaltsPrecisely :
    badCore.halted = false ∧ badCore.phase = .fetch ∧ badCore.mem.imem badCore.pc = some 0#32 ∧
    decodeWord 0#32 = .error .opcode := by decide

theorem witness_HaltedCoreIsFrozen : ({ inFlight 0#32 0#64 .memAccess with halted := true } : State).halted = true := by
  decide

/-- The second part holds of a legal and of an illegal word in DECODE. -/
theorem witness_LegalInstructionsNeverHalt :
    (∃ t, step (inFlight 0#32 0#64 .decode) = .next t ∧ t.halted = true) ∧
    (∃ t, step (inFlight 0x008000EF#32 0#64 .decode) = .next t ∧ t.halted = false) ∧
    (inFlight 0x008000EF#32 0#64 .decode).halted = false ∧
    ∃ t, exec (.jal 1 8) (inFlight 0x008000EF#32 0#64 .decode) = .next t :=
  ⟨⟨_, rfl, rfl⟩, ⟨_, rfl, rfl⟩, rfl, _, rfl⟩

theorem witness_ConstructedCoreIsInTheResetState : [0x002081B3#32][0]? = some 0x002081B3#32 := by decide

theorem witness_ProgramNeverChanges : ∃ t, steps 2 addCore = .next t := ⟨_, rfl⟩

theorem witness_ConstructedCoreMeetsTheInvariant :
    (1 ≤ [0x002081B3#32].length ∧ [0x002081B3#32].length ≤ 2 ^ (Params.decided.xlen.bits - 2)) ∧
    (∀ sel : Selector, Params.decided.fits (addCore.regs.read sel)) ∧ Params.decided.fits 0#64 := by decide

/-- A state in WRITEBACK that meets the invariant and has a next state: an ADD with its sum latched. -/
theorem witness_StepKeepsTheInvariant :
    (inFlight 0x002081B3#32 0#64 .writeback).Inv ∧ ∃ t, step (inFlight 0x002081B3#32 0#64 .writeback) = .next t :=
  ⟨{ memWf := by decide, memInSpace := by decide,
     memLoaded := fun _ => ⟨[0x002081B3#32], by decide, rfl⟩, regsFit := by decide, pcFits := by decide, cyclesFit := by decide,
     aluOutFits := by decide, pcEven := by decide, haltedPhase := by decide, memAccessIllegal := by decide,
     executeLegal := by decide, writebackLegal := by decide, writebackResult := by decide }, _, rfl⟩

theorem witness_InstructionsTakeFiveSteps :
    addCore.halted = false ∧ addCore.phase = .fetch ∧ addCore.mem.imem addCore.pc = some 0x002081B3#32 ∧
    decodeWord 0x002081B3#32 = .ok (.add 0 3 1 2) ∧
    badCore.mem.imem badCore.pc = some 0#32 ∧ decodeWord 0#32 = .error .opcode ∧
    (core []).phase = .fetch ∧ (core []).mem.imem (core []).pc = none := by decide

theorem witness_StepCountLaw :
    (∃ t, steps 1 addCore = .next t ∧ t.halted = false) ∧
    (steps (5 * (1 - 1)) badCore = .next badCore ∧ badCore.halted = false ∧
      badCore.mem.imem badCore.pc = some 0#32 ∧ decodeWord 0#32 = .error .opcode) :=
  ⟨⟨_, rfl, rfl⟩, rfl, by decide⟩

theorem witness_InitialLatchesAreNeverObserved :
    (∃ t, steps 1 addCore = .next t) ∧ steps 1 (core []) = .fault .fetchOutOfRange := ⟨⟨_, rfl⟩, rfl⟩

theorem witness_CoresShareNoState :
    [addCore, jalCore, core []][1]? = some jalCore ∧ (∃ c, step jalCore = .next c) ∧
    [addCore, jalCore, core []][2]? = some (core []) ∧ step (core []) = .fault .fetchOutOfRange :=
  ⟨rfl, ⟨_, rfl⟩, rfl, rfl⟩

theorem witness_LoadedWordIsTheNextFetched : 1 ≠ addCore.pc.toNat / 4 ∧ addCore.mem.wf := by decide

theorem witness_AssembledOperandsReadBack :
    ((0 : Int) ≤ 4095 ∧ (1 : Int) ≤ 2048 ∧ (-1048576 : Int) % 2 = 0 ∧ (1048574 : Int) % 2 = 0) ∧
    ((3 : Int) % 2 ≠ 0 ∧ (-1048578 : Int) < -1048576 ∧ (1048574 : Int) < 1048576) ∧
    ((-2049 : Int) < -2048 ∧ (4095 : Int) < 4096) := by decide

/-- A register and an ALU latch at the top of XLEN = 32, and one past it, which builds no core (R32). -/
theorem test_construct_draws_32 :
    let p := { Params.decided with xlen := .x32 }
    AdmissibleDraw p (Vector.replicate 30 0xFFFFFFFF#64) 0xFFFFFFFF#64 ∧
    State.construct p [0x13#32] (Vector.replicate 30 0x100000000#64) 0#32 0#64 = none ∧
    State.construct p [0x13#32] (Vector.replicate 30 0#64) 0#32 0x100000000#64 = none := by decide

theorem witness_ConstructedCoreHoldsXlenBitValues :
    State.construct Params.decided [0x002081B3#32] (Vector.replicate 30 0#64) 0#32 0#64 = some addCore ∧
    ∃ t, steps 5 addCore = .next t := ⟨by decide, _, rfl⟩

/-- A PROGRAM at the lower end of R3's range, one that R3 does not admit, and a loaded core that steps. -/
theorem witness_ConstructionAdmitsExactlyR3 :
    AdmissibleProgram Params.decided [0x002081B3#32] ∧ ¬ AdmissibleProgram Params.decided [] ∧
    State.construct Params.decided [0x002081B3#32] (Vector.replicate 30 0#64) 0#32 0#64 = some addCore ∧
    State.construct Params.decided [] (Vector.replicate 30 0#64) 0#32 0#64 = none ∧
    (∀ sel, (addCore.regs.read sel).toNat < 2 ^ Params.decided.xlen.bits) ∧
    (∃ sel, 2 ^ Xlen.x32.bits ≤ (RegFile.read (Vector.replicate 30 0x100000000#64) sel).toNat) ∧
    addCore.Loaded ∧ ∃ t, steps 5 addCore = .next t :=
  ⟨by decide, by decide, by decide, by decide, by decide, ⟨1, by decide⟩, ⟨[0x002081B3#32], by decide, rfl⟩, _, rfl⟩

end Sys2Proof.Machine.Tests
end

namespace Sys2Proof.Machine

/-! ### What every step keeps (R34, R44) -/

/-- Presenting the word in flight can change `ir` alone. -/
theorem present_keeps_mem_params {s s' : State} (h : present s = some s') :
    s'.mem = s.mem ∧ s'.params = s.params := by
  obtain ⟨-, w, -, rfl⟩ | ⟨-, rfl⟩ := present_cases h
  · exact ⟨rfl, rfl⟩
  · exact ⟨rfl, rfl⟩

/-- No step changes the memory or the parameters. -/
theorem step_keeps_mem_params {s t : State} (h : step s = .next t) :
    t.mem = s.mem ∧ t.params = s.params := by
  obtain ⟨-, rfl⟩ | ⟨-, s', hp, rfl⟩ := step_next_cases h
  · exact ⟨rfl, rfl⟩
  · obtain ⟨hm, hps⟩ := cycle_keeps_mem_params (decoder s'.params s'.ir) s'
    obtain ⟨hm', hps'⟩ := present_keeps_mem_params hp
    exact ⟨hm.trans hm', hps.trans hps'⟩

/-- No run changes the memory or the parameters. -/
theorem steps_keep_mem_params {n : Nat} {s t : State} (h : steps n s = .next t) :
    t.mem = s.mem ∧ t.params = s.params := by
  refine steps_keep (P := fun u => u.mem = s.mem ∧ u.params = s.params) ?_ ⟨rfl, rfl⟩ h
  intro u v ⟨hm, hp⟩ huv
  obtain ⟨hm', hp'⟩ := step_keeps_mem_params huv
  exact ⟨hm'.trans hm, hp'.trans hp⟩

/-- Every step of a core that holds an admissible PROGRAM leaves it holding one. -/
theorem step_keeps_loaded {s t : State} (hs : s.Loaded) (h : step s = .next t) : t.Loaded := by
  obtain ⟨hm, hp⟩ := step_keeps_mem_params h
  exact hs.of_eq hp hm

/-! ### Construction, by the numbers R3 and R32 speak of -/

/-- The draws a core can be built with, by what the selectors read and by value (R6, R32). -/
theorem admissibleDraw_iff {p : Params} {regInit : RegFile} {aluInit : Word} :
    AdmissibleDraw p regInit aluInit ↔
      (∀ sel, (regInit.read sel).toNat < 2 ^ p.xlen.bits) ∧ aluInit.toNat < 2 ^ p.xlen.bits := by
  rw [AdmissibleDraw, RegFile.fits_iff]
  simp only [Params.fits_iff]

/-- Construction answers the reset state for an admissible PROGRAM and admissible draws. -/
theorem State.construct_of_admissible {p : Params} {program : List InstrWord} {regInit : RegFile}
    {irInit : InstrWord} {aluInit : Word} (hprog : AdmissibleProgram p program)
    (hdraw : AdmissibleDraw p regInit aluInit) :
    State.construct p program regInit irInit aluInit = some (State.initial p program regInit irInit aluInit) :=
  State.construct_eq_some_iff.mpr ⟨⟨hprog, hdraw⟩, rfl⟩

/-- Construction builds no core exactly where PROGRAM or a draw is not admissible. -/
theorem State.construct_eq_none_iff {p : Params} {program : List InstrWord} {regInit : RegFile}
    {irInit : InstrWord} {aluInit : Word} :
    State.construct p program regInit irInit aluInit = none ↔
      ¬ (AdmissibleProgram p program ∧ AdmissibleDraw p regInit aluInit) := by
  simp only [State.construct, ite_eq_right_iff, reduceCtorEq, imp_false]

/-- A PROGRAM or a draw outside its range builds no core. -/
theorem State.construct_eq_none_of_out_of_range {p : Params} {program : List InstrWord} {regInit : RegFile}
    {irInit : InstrWord} {aluInit : Word}
    (h : program.length = 0 ∨ 2 ^ (p.xlen.bits - 2) < program.length ∨
      (∃ sel, 2 ^ p.xlen.bits ≤ (regInit.read sel).toNat) ∨ 2 ^ p.xlen.bits ≤ aluInit.toNat) :
    State.construct p program regInit irInit aluInit = none := by
  rw [State.construct_eq_none_iff, admissibleDraw_iff]
  rintro ⟨⟨hpos, hmax⟩, hregs, halu⟩
  obtain hzero | hlong | ⟨sel, hwide⟩ | hwide := h
  · omega
  · exact absurd hmax hlong.not_ge
  · exact absurd (hregs sel) hwide.not_gt
  · exact absurd halu hwide.not_gt

/-- After any run of a constructed core, its memory holds the PROGRAM it was built from, with N in R3's range. -/
theorem steps_of_construct_keep_program {p : Params} {program : List InstrWord} {regInit : RegFile}
    {irInit : InstrWord} {aluInit : Word} {s t : State} {n : Nat}
    (hs : State.construct p program regInit irInit aluInit = some s) (h : steps n s = .next t) :
    t.mem = Memory.ofWords program ∧ t.params = p ∧ t.mem.programLength = program.length ∧
      1 ≤ t.mem.programLength ∧ t.mem.programLength ≤ 2 ^ (p.xlen.bits - 2) := by
  obtain ⟨⟨⟨hpos, hmax⟩, -⟩, rfl⟩ := State.construct_eq_some_iff.mp hs
  obtain ⟨hm, hp⟩ := steps_keep_mem_params h
  have hlen : t.mem.programLength = program.length := by
    rw [hm, State.initial_mem, Memory.programLength_ofWords]
  exact ⟨hm, hp, hlen, hlen ▸ hpos, hlen ▸ hmax⟩

/-- Settles O48: construction decides both ranges, and neither the memory nor the parameters change in any step. -/
theorem constructionAdmitsExactlyR3 : Obligations.ConstructionAdmitsExactlyR3 := by
  refine ⟨fun p program regInit irInit aluInit => ⟨?_, ?_, ?_⟩, ?_⟩
  · exact fun hprog hregs halu =>
      State.construct_of_admissible hprog (admissibleDraw_iff.mpr ⟨hregs, halu⟩)
  · exact State.construct_eq_none_of_out_of_range
  · exact fun _ _ _ => steps_of_construct_keep_program
  · exact fun _ _ => step_keeps_loaded

end Sys2Proof.Machine

namespace Sys2Proof

/-! ### Addition modulo 2^XLEN (R25) -/

/-- Addition modulo 2^XLEN commutes. -/
theorem Params.add_comm (p : Params) (a b : Word) : p.add a b = p.add b a :=
  congrArg p.wrap (BitVec.add_comm a b)

/-- Adding 1 to the greatest XLEN-bit value wraps to 0. -/
theorem Params.add_max_one (p : Params) : p.add (BitVec.ofNat 64 (2 ^ p.xlen.bits - 1)) 1#64 = 0#64 := by
  rw [← BitVec.toNat_inj, Params.add_toNat]
  cases p.xlen with
  | x32 => rfl
  | x64 => rfl

end Sys2Proof

namespace Sys2Proof.Machine

/-! ### The register file's cells (R14) -/

/-- What cell `k`, the register x(k+1), holds after the write port is driven (R14). -/
theorem RegFile.getElem_write (r : RegFile) (sel : Selector) (v : Word) (enable : Bool) (k : Fin 30) :
    (r.write sel v enable)[k] = if enable = true ∧ sel.toNat = k + 1 then v else r[k] := by
  by_cases hw : enable = true ∧ isMapped sel = true
  · obtain ⟨rfl, hm⟩ := hw
    have hb := (isMapped_iff sel).mp hm
    have hcell : sel.toNat - 1 = k ↔ sel.toNat = k + 1 := by omega
    simp [RegFile.write, hm, Vector.getElem_setIfInBounds, hcell]
  · have hne : ¬ (enable = true ∧ sel.toNat = k + 1) := fun ⟨he, hk⟩ =>
      hw ⟨he, (isMapped_iff sel).mpr (by omega)⟩
    have hsame : r.write sel v enable = r := by simp [RegFile.write, hw]
    rw [if_neg hne, hsame]

/-- Settles O9: cell by cell, and by the laws of a disabled and of an unmapped write. -/
theorem guardedWritePort : Obligations.GuardedWritePort := by
  refine fun r sel v enable => ⟨r.getElem_write sel v enable, ?_⟩
  rintro (rfl | rfl | rfl)
  · exact r.write_disabled sel v
  · exact r.write_unmapped (by decide) v enable
  · exact r.write_unmapped (by decide) v enable

/-! ### The ALU (R25) -/

/-- Settles O11: the enabled ALU is the addition modulo 2^XLEN. -/
theorem aluAddsModuloXlen : Obligations.AluAddsModuloXlen := by
  intro p a b
  simp only [alu_enabled]
  exact ⟨p.add_toNat a b, p.add_comm a b, p.add_max_one⟩

/-! ### The halt latch (R20) -/

/-- The decoder's illegal output is asserted for exactly the words that do not decode (R60, R63). -/
theorem decoder_illegal_iff (p : Params) (w : InstrWord) :
    (decoder p w).illegal = true ↔ ∃ e, decodeWord w = .error e := by
  cases h : decodeWord w with
  | error e => simp [decoder_of_error p h, illegalControl]
  | ok i =>
    cases i with
    | add => simp [decoder_of_add p h, addControl, DecodedControl.base]
    | addi => simp [decoder_of_addi p h, addiControl, DecodedControl.base]
    | jal rd =>
      by_cases hrd : rd = 0#5 <;> simp [decoder_of_jal p h, jalControl, DecodedControl.base, hrd]

/-- A phase sets the halt latch in DECODE, of an illegal word, and none clears it (R20, R72). -/
theorem cycle_halted_iff (d : DecodedControl) (s : State) :
    (cycle d s).halted = true ↔ s.halted = true ∨ (s.phase = .decode ∧ d.illegal = true) := by
  cases hp : s.phase with
  | fetch => simp [cycle_of_fetch hp]
  | decode => simp [cycle_of_decode hp, or_comm]
  | memAccess => simp [cycle_of_memAccess hp]
  | execute => simp [cycle_of_execute hp]
  | writeback => simp [cycle_of_writeback hp]

/-- What a step does to the halt latch (R20). -/
theorem step_halted_iff {s t : State} (h : step s = .next t) :
    t.halted = true ↔ s.halted = true ∨ (s.phase = .decode ∧ ∃ e, decodeWord s.ir = .error e) := by
  obtain ⟨hh, rfl⟩ | ⟨-, s', hp, rfl⟩ := step_next_cases h
  · simp [hh]
  · rw [cycle_halted_iff, decoder_illegal_iff]
    obtain ⟨hf, w, -, rfl⟩ | ⟨-, rfl⟩ := present_cases hp
    · simp [hf]
    · rfl

/-- Settles O34: reset clears the latch, and `step_halted_iff` says which steps set it. -/
theorem haltLatchIsSetOnlyByDecodingAnIllegalWord :
    Obligations.HaltLatchIsSetOnlyByDecodingAnIllegalWord := by
  refine ⟨State.initial_halted, fun s t h => ⟨step_halted_iff h, fun hh => ?_⟩⟩
  exact Host.Outcome.next.inj (h.symm.trans (step_of_halted hh))

/-! ### The product of several cores (R33) -/

/-- Where the core at an index has a next state, stepping it replaces that core alone. -/
theorem stepCore_of_next {cores : List State} {k : Nat} {c c' : State} (hk : cores[k]? = some c)
    (h : step c = .next c') : stepCore cores k = .next (cores.set k c') := by
  induction cores generalizing k with
  | nil => simp at hk
  | cons x xs ih =>
    cases k with
    | zero =>
      obtain rfl : x = c := by simpa using hk
      simp [stepCore, h]
    | succ k => simp [stepCore, ih (k := k) (by simpa using hk)]

/-- A fault of the core at an index is the outcome of the product's step. -/
theorem stepCore_of_fault {cores : List State} {k : Nat} {c : State} {f : Fault} (hk : cores[k]? = some c)
    (h : step c = .fault f) : stepCore cores k = .fault f := by
  induction cores generalizing k with
  | nil => simp at hk
  | cons x xs ih =>
    cases k with
    | zero =>
      obtain rfl : x = c := by simpa using hk
      simp [stepCore, h]
    | succ k => simp [stepCore, ih (k := k) (by simpa using hk)]

/-- Settles O45: stepping one core sets its entry of the list and no other. -/
theorem coresShareNoState : Obligations.CoresShareNoState := by
  refine fun cores k c hk =>
    ⟨fun c' h => ⟨cores.set k c', stepCore_of_next hk h, ?_, ?_⟩, fun f h => stepCore_of_fault hk h⟩
  · obtain ⟨hlt, -⟩ := List.getElem?_eq_some_iff.mp hk
    exact List.getElem?_set_self hlt
  · exact fun j hj => List.getElem?_set_ne hj.symm

/-! ### XLEN-bit values (R10, R32) -/

/-- The registers, the PC, the counter and the ALU latch hold XLEN-bit values: the part of `State.Inv` that is
about R32, which every step keeps on its own. -/
structure State.ValuesFit (s : State) : Prop where
  regs : ∀ sel, s.params.fits (s.regs.read sel)
  pc : s.params.fits s.pc
  cycles : s.params.fits s.cycles
  aluOut : s.params.fits s.aluOut

/-- Writing an XLEN-bit value leaves every selector reading one. -/
theorem RegFile.write_fits {p : Params} {r : RegFile} (hr : ∀ sel, p.fits (r.read sel)) {v : Word}
    (hv : p.fits v) (rd : Selector) (enable : Bool) (sel : Selector) :
    p.fits ((r.write rd v enable).read sel) := by
  revert sel
  rw [← RegFile.fits_iff] at hr ⊢
  intro k
  rw [RegFile.getElem_write]
  split
  · exact hv
  · exact hr k

/-- Every phase keeps XLEN-bit values: what it writes is a sum modulo 2^XLEN, or the ALU latch. -/
theorem cycle_keeps_valuesFit {s : State} (h : s.ValuesFit) (d : DecodedControl) :
    (cycle d s).ValuesFit := by
  obtain ⟨hregs, hpc, hcycles, halu⟩ := h
  cases hp : s.phase with
  | fetch =>
    rw [cycle_of_fetch hp]
    exact ⟨hregs, s.params.add_fits _ _, hcycles, halu⟩
  | decode =>
    rw [cycle_of_decode hp]
    constructor <;> simpa
  | memAccess =>
    rw [cycle_of_memAccess hp]
    exact ⟨hregs, hpc, hcycles, halu⟩
  | execute =>
    rw [cycle_of_execute hp]
    refine ⟨hregs, ?_, hcycles, ?_⟩
    · rw [executePhase_pc]
      split
      · exact hpc
      · exact s.params.add_fits _ _
    · rw [executePhase_aluOut, alu_enabled]
      split
      · exact s.params.add_fits _ _
      · exact halu
  | writeback =>
    rw [cycle_of_writeback hp]
    exact ⟨RegFile.write_fits hregs halu _ _, hpc, s.params.add_fits _ _, halu⟩

/-- Every step keeps XLEN-bit values. -/
theorem step_keeps_valuesFit {s t : State} (hs : s.ValuesFit) (h : step s = .next t) : t.ValuesFit := by
  obtain ⟨-, rfl⟩ | ⟨-, s', hp, rfl⟩ := step_next_cases h
  · exact hs
  · refine cycle_keeps_valuesFit ?_ _
    obtain ⟨-, w, -, rfl⟩ | ⟨-, rfl⟩ := present_cases hp
    · exact ⟨hs.regs, hs.pc, hs.cycles, hs.aluOut⟩
    · exact hs

/-- Every constructed core holds XLEN-bit values. -/
theorem State.valuesFit_of_construct {p : Params} {program : List InstrWord} {regInit : RegFile}
    {irInit : InstrWord} {aluInit : Word} {s : State}
    (hs : State.construct p program regInit irInit aluInit = some s) : s.ValuesFit := by
  obtain ⟨⟨-, hregs, halu⟩, rfl⟩ := State.construct_eq_some_iff.mp hs
  exact ⟨(RegFile.fits_iff p regInit).mp hregs, p.zero_fits, p.zero_fits, halu⟩

/-- Settles O49: a constructed core holds XLEN-bit values, every step keeps them, and none changes XLEN. -/
theorem constructedCoreHoldsXlenBitValues : Obligations.ConstructedCoreHoldsXlenBitValues := by
  intro p program regInit irInit aluInit s t n hs h
  obtain ⟨-, rfl, -⟩ := steps_of_construct_keep_program hs h
  obtain ⟨hregs, hpc, hcycles, halu⟩ : t.ValuesFit :=
    steps_keep (fun _ _ => step_keeps_valuesFit) (State.valuesFit_of_construct hs) h
  have hcells := (RegFile.fits_iff _ _).mpr hregs
  simp only [Params.fits_iff] at hregs hpc hcycles halu hcells
  exact ⟨hregs, hpc, hcycles, halu, hcells, hpc⟩

end Sys2Proof.Machine

namespace Sys2Proof

/-! ### Extension modulo 2^XLEN (00_scope.md section 5) -/

/-- Sign extension gives the signed reading of the pattern, modulo 2^XLEN. -/
theorem Params.sext_toNat (p : Params) {n : Nat} (v : BitVec n) :
    ((p.sext v).toNat : Int) = v.toInt % 2 ^ p.xlen.bits := by
  have hdvd : (2 ^ p.xlen.bits : Int) ∣ 2 ^ 64 := by exact_mod_cast p.bits_dvd
  have h64 : ((v.signExtend 64).toNat : Int) = v.toInt % 2 ^ 64 := by
    rw [BitVec.signExtend, BitVec.toNat_ofInt]
    exact Int.toNat_of_nonneg (Int.emod_nonneg _ (by decide))
  rw [Params.sext, Params.wrap_toNat]
  push_cast
  rw [h64, Int.emod_emod_of_dvd _ hdvd]

/-- Zero extension of a pattern of at most XLEN bits keeps its number. -/
theorem Params.zext_toNat (p : Params) {n : Nat} (hn : n ≤ p.xlen.bits) (v : BitVec n) :
    (p.zext v).toNat = v.toNat := by
  have hv : v.toNat < 2 ^ p.xlen.bits := v.isLt.trans_le (Nat.pow_le_pow_right (by decide) hn)
  rw [Params.zext, Params.wrap_toNat, BitVec.toNat_setWidth, Nat.mod_mod_of_dvd _ p.bits_dvd,
    Nat.mod_eq_of_lt hv]

/-- The extensions of a pattern narrower than XLEN agree exactly when its sign bit is 0: with the sign bit set,
the two readings differ by 2^n, which is not a multiple of 2^XLEN. -/
theorem Params.zext_eq_sext_iff (p : Params) {n : Nat} (hn : n < p.xlen.bits) (v : BitVec n) :
    p.zext v = p.sext v ↔ v.msb = false := by
  have hpow : 2 ^ n < 2 ^ p.xlen.bits := Nat.pow_lt_pow_right (by decide) hn
  have hv : (v.toNat : Int) = v.toNat % 2 ^ p.xlen.bits := by
    exact_mod_cast (Nat.mod_eq_of_lt (v.isLt.trans hpow)).symm
  rw [← BitVec.toNat_inj, ← Int.natCast_inj, p.zext_toNat hn.le, p.sext_toNat, hv,
    Int.emod_eq_emod_iff_emod_sub_eq_zero, BitVec.toInt_eq_msb_cond]
  cases v.msb with
  | false => simp
  | true =>
    have hne : (2 ^ n : Int) % 2 ^ p.xlen.bits ≠ 0 := by
      exact_mod_cast (Nat.mod_eq_of_lt hpow).trans_ne (by positivity)
    simpa using hne

/-- XLEN is at least 32 (R2), so wider than every immediate. -/
theorem Xlen.thirtyTwo_le_bits (x : Xlen) : 32 ≤ x.bits := by
  cases x <;> decide

/-! ### The JAL offset (R50, R52) -/

/-- A pattern with bit 0 clear is an even number in its signed reading. -/
theorem toInt_even_of_bit_zero {n : Nat} (v : BitVec (n + 1)) (h : v.getLsbD 0 = false) : v.toInt % 2 = 0 := by
  have hnat : v.toNat % 2 = 0 := by
    simpa [BitVec.getLsbD, Nat.testBit_zero] using h
  rw [BitVec.toInt_eq_msb_cond, pow_succ]
  split <;> omega

/-- Settles O6: imm_J is a signed 21-bit value with bit 0 clear, and off_J is its sign extension. -/
theorem jalOffsetIsTheSignedImmediate : Obligations.JalOffsetIsTheSignedImmediate := by
  intro p w
  have hlo := (immJOf w).le_toInt
  have hhi := (immJOf w).toInt_lt
  have heven := toInt_even_of_bit_zero (immJOf w) (immJOf_bit_zero w)
  norm_num at hlo hhi
  exact ⟨hlo, by omega, heven, p.sext_toNat _⟩

/-! ### The ADDI immediate (R51) -/

/-- Settles O7: the two values of ADDI_IMM_EXT are the two extensions, which agree when the sign bit is 0. -/
theorem addiImmediateWidening : Obligations.AddiImmediateWidening := by
  intro p imm
  have hwidth : 12 < p.xlen.bits := Nat.lt_of_lt_of_le (by decide) p.xlen.thirtyTwo_le_bits
  refine ⟨fun hzero => ?_, fun hsign => ?_, ?_⟩
  · simp only [addiImm, hzero, p.zext_toNat hwidth.le]
  · simp only [addiImm, hsign, p.sext_toNat]
  · rw [← BitVec.msb_eq_getLsbD_last imm]
    exact Params.zext_eq_sext_iff _ hwidth imm

end Sys2Proof

namespace Sys2Proof.Machine

/-! ### One step of a running core, by its phase (R71 to R77) -/

theorem present_of_fetch_none {s : State} (h : s.phase = .fetch) (hw : s.mem.imem s.pc = none) :
    present s = none := by
  simp [present, h, hw]

/-- A FETCH step that reads a word latches it and advances the PC (R71). -/
theorem step_of_fetch {s : State} {w : InstrWord} (hh : s.halted = false) (hp : s.phase = .fetch)
    (hw : s.mem.imem s.pc = some w) :
    step s = .next { s with ir := w, pc := s.params.add s.pc 4#64, phase := .decode } := by
  rw [step_of_present hh (present_of_fetch hp hw), cycle_of_fetch (s := { s with ir := w }) hp, fetchPhase]

/-- A FETCH step with no word at the PC faults (R36, R71). -/
theorem step_of_fetch_none {s : State} (hh : s.halted = false) (hp : s.phase = .fetch)
    (hw : s.mem.imem s.pc = none) : step s = .fault .fetchOutOfRange :=
  step_of_present_none hh (present_of_fetch_none hp hw)

/-- Outside FETCH, a step is the phase of the word already in `ir` (R81). -/
theorem step_of_not_fetch {s : State} (hh : s.halted = false) (hp : s.phase ≠ .fetch) :
    step s = .next (cycle (decoder s.params s.ir) s) :=
  step_of_present hh (present_of_not_fetch hp)

theorem step_of_decode {s : State} (hh : s.halted = false) (hp : s.phase = .decode) :
    step s = .next (decodePhase (decoder s.params s.ir) s) := by
  rw [step_of_not_fetch hh (by simp [hp]), cycle_of_decode hp]

theorem step_of_memAccess {s : State} (hh : s.halted = false) (hp : s.phase = .memAccess) :
    step s = .next (memAccessPhase s) := by
  rw [step_of_not_fetch hh (by simp [hp]), cycle_of_memAccess hp]

theorem step_of_execute {s : State} (hh : s.halted = false) (hp : s.phase = .execute) :
    step s = .next (executePhase (decoder s.params s.ir) s) := by
  rw [step_of_not_fetch hh (by simp [hp]), cycle_of_execute hp]

theorem step_of_writeback {s : State} (hh : s.halted = false) (hp : s.phase = .writeback) :
    step s = .next (writebackPhase (decoder s.params s.ir) s) := by
  rw [step_of_not_fetch hh (by simp [hp]), cycle_of_writeback hp]

/-- Settles O18: the two cases of a FETCH step, by whether there is a word at the PC. -/
theorem fetchStepLatchesAndAdvances : Obligations.FetchStepLatchesAndAdvances :=
  fun _ hh hp => ⟨fun _ => step_of_fetch hh hp, step_of_fetch_none hh hp⟩

/-- Settles O19: the MEMACCESS phase is the reserved one. -/
theorem memAccessStepOnlyAdvances : Obligations.MemAccessStepOnlyAdvances :=
  fun _ => step_of_memAccess

/-! ### The order of the phases and the retirement counter (R70, R77) -/

/-- Each phase goes on to the next one (R70). -/
theorem cycle_phase (d : DecodedControl) (s : State) : (cycle d s).phase = s.phase.succ := by
  cases hp : s.phase with
  | fetch => simp [cycle_of_fetch hp, Phase.succ]
  | decode => simp [cycle_of_decode hp, Phase.succ]
  | memAccess => simp [cycle_of_memAccess hp, Phase.succ]
  | execute => simp [cycle_of_execute hp, Phase.succ]
  | writeback => simp [cycle_of_writeback hp, Phase.succ]

/-- WRITEBACK counts the instruction it retires, and no other phase counts (R77). -/
theorem cycle_cycles (d : DecodedControl) (s : State) :
    (cycle d s).cycles = if s.phase = .writeback then s.params.add s.cycles 1#64 else s.cycles := by
  cases hp : s.phase with
  | fetch => simp [cycle_of_fetch hp]
  | decode => simp [cycle_of_decode hp]
  | memAccess => simp [cycle_of_memAccess hp]
  | execute => simp [cycle_of_execute hp]
  | writeback => simp [cycle_of_writeback hp]

/-- What a step of a running core does to the phase and to the counter (R70, R77). -/
theorem step_phase_and_cycles {s t : State} (hh : s.halted = false) (h : step s = .next t) :
    t.phase = s.phase.succ ∧
      t.cycles = if s.phase = .writeback then s.params.add s.cycles 1#64 else s.cycles := by
  obtain ⟨hhalted, -⟩ | ⟨-, s', hp, rfl⟩ := step_next_cases h
  · simp [hh] at hhalted
  · rw [cycle_phase, cycle_cycles]
    obtain ⟨-, w, -, rfl⟩ | ⟨-, rfl⟩ := present_cases hp
    · exact ⟨rfl, rfl⟩
    · exact ⟨rfl, rfl⟩

/-- Settles O17: the phase after a step is the successor, read off phase by phase. -/
theorem phaseAdvancesAndWritebackRetires : Obligations.PhaseAdvancesAndWritebackRetires := by
  intro s t hh h
  obtain ⟨hphase, hcycles⟩ := step_phase_and_cycles hh h
  have hsucc {q : Phase} (hq : s.phase = q) : t.phase = q.succ := hq ▸ hphase
  exact ⟨hsucc, hsucc, hsucc, hsucc, hsucc, hcycles⟩

/-! ### The step function as R79 prints it -/

/-- The first operand by the tests R79 makes: there are two sources, and two values of JAL_LINK. -/
theorem operand1_eq_ite (d : DecodedControl) (s : State) :
    operand1 d s = if d.src1 = .rs1 then s.regs.read d.rs1
      else if s.params.jalLink = .next then s.pc else s.params.add s.pc d.branchOffset := by
  cases hs : d.src1 with
  | rs1 => simp [operand1, hs]
  | pc => cases hl : s.params.jalLink <;> simp [operand1, hs, hl]

/-- The second operand by the tests R79 makes. -/
theorem operand2_eq_ite (d : DecodedControl) (s : State) :
    operand2 d s = if d.src2 = .rs2 then s.regs.read d.rs2 else if d.src2 = .imm then d.imm else 0#64 := by
  cases hs : d.src2 <;> simp [operand2, hs]

/-- The write port by the guard R79 prints (R14). -/
theorem RegFile.write_eq_ite (r : RegFile) (sel : Selector) (v : Word) (enable : Bool) :
    r.write sel v enable = if enable ∧ 1 ≤ sel.toNat ∧ sel.toNat ≤ 30 then
      r.setIfInBounds (sel.toNat - 1) v else r := by
  simp [RegFile.write, isMapped_iff]

/-- The printed DECODE is the model's (R72). -/
theorem specStep_of_decode {s : State} (hh : s.halted = false) (hp : s.phase = .decode) :
    specStep s = .next (decodePhase (decoder s.params s.ir) s) := by
  cases hill : (decoder s.params s.ir).illegal <;> simp [specStep, decodePhase, takeException, hh, hp, hill]

/-- The printed EXECUTE is the model's: its assignments to alu_out and to pc are independent (R74, R75). -/
theorem specStep_of_execute {s : State} (hh : s.halted = false) (hp : s.phase = .execute) :
    specStep s = .next (executePhase (decoder s.params s.ir) s) := by
  cases hen : (decoder s.params s.ir).aluEn with
  | false =>
    by_cases hoff : (decoder s.params s.ir).branchOffset = 0#64 <;>
      simp [specStep, executePhase, hh, hp, hen, hoff]
  | true =>
    by_cases hoff : (decoder s.params s.ir).branchOffset = 0#64 <;>
      simp [specStep, executePhase, operand1_eq_ite, operand2_eq_ite, hh, hp, hen, hoff]

/-- The printed WRITEBACK is the model's (R76, R77). -/
theorem specStep_of_writeback {s : State} (hh : s.halted = false) (hp : s.phase = .writeback) :
    specStep s = .next (writebackPhase (decoder s.params s.ir) s) := by
  by_cases hguard : (decoder s.params s.ir).regwrite = true ∧ 1 ≤ (decoder s.params s.ir).rd.toNat ∧
      (decoder s.params s.ir).rd.toNat ≤ 30 <;>
    simp [specStep, writebackPhase, RegFile.write_eq_ite, hh, hp, hguard]

/-- Settles O16: a halted core, then phase by phase. -/
theorem stepIsThePrintedStepFunction : Obligations.StepIsThePrintedStepFunction := by
  intro s
  cases hh : s.halted with
  | true => simp [step_of_halted, specStep, hh]
  | false =>
    cases hp : s.phase with
    | fetch =>
      cases hw : s.mem.imem s.pc with
      | none => simp [step_of_fetch_none hh hp hw, specStep, hh, hp, hw]
      | some w => simp [step_of_fetch hh hp hw, specStep, hh, hp, hw]
    | decode => rw [step_of_decode hh hp, specStep_of_decode hh hp]
    | memAccess => simp [step_of_memAccess hh hp, memAccessPhase, specStep, hh, hp]
    | execute => rw [step_of_execute hh hp, specStep_of_execute hh hp]
    | writeback => rw [step_of_writeback hh hp, specStep_of_writeback hh hp]

end Sys2Proof.Machine

namespace Sys2Proof

/-! ### The fields of an encoded ADD and ADDI (R47, R48, R49)

The R and the I format share their low 20 bits: rs1, funct3, rd and the opcode. -/

/-- The fields of a word in the layout the R and the I format share. -/
theorem fields_of_layout (hi : BitVec 12) (rs1 : Selector) (funct3 : BitVec 3) (rd : Selector) (op : BitVec 7) :
    rdOf (hi ++ rs1 ++ funct3 ++ rd ++ op) = rd ∧ funct3Of (hi ++ rs1 ++ funct3 ++ rd ++ op) = funct3 ∧
      rs1Of (hi ++ rs1 ++ funct3 ++ rd ++ op) = rs1 ∧ immIOf (hi ++ rs1 ++ funct3 ++ rd ++ op) = hi := by
  simp [rdOf, funct3Of, rs1Of, immIOf, BitVec.extractLsb'_append_eq_of_le (w := 7),
    BitVec.extractLsb'_append_eq_of_le (w := 5), BitVec.extractLsb'_append_eq_of_le (w := 3),
    BitVec.extractLsb'_append_eq_of_add_le (w := 5), BitVec.extractLsb'_append_eq_of_add_le (w := 3)]

/-- funct7 is the high part of imm_I's bits, as rs2 is the low part (R47, R49). -/
theorem immIOf_extract_funct7 (w : InstrWord) : (immIOf w).extractLsb' 5 7 = funct7Of w := by
  apply BitVec.eq_of_getLsbD_eq
  intro i hi
  simp only [immIOf, funct7Of, BitVec.getLsbD_extractLsb']
  interval_cases i <;> simp

/-- The word of an ADD decodes to that ADD (R48, R54). -/
theorem decodeWord_encode_add (funct3 : BitVec 3) (rd rs1 rs2 : Selector) :
    decodeWord (encode (.add funct3 rd rs1 rs2)) = .ok (.add funct3 rd rs1 rs2) := by
  obtain ⟨hrd, hf3, hrs1, himm⟩ := fields_of_layout (0#7 ++ rs2) rs1 funct3 rd opReg
  have hrs2 : rs2Of (encode (.add funct3 rd rs1 rs2)) = rs2 := by
    rw [← immIOf_extract_rs2, encode, himm, BitVec.extractLsb'_append_eq_right]
  have hf7 : funct7Of (encode (.add funct3 rd rs1 rs2)) = 0#7 := by
    rw [← immIOf_extract_funct7, encode, himm, BitVec.extractLsb'_append_eq_left]
  rw [decodeWord, if_pos (opcodeOf_encode_add ..), if_pos hf7, hrs2, encode, hrd, hf3, hrs1]

/-- The word of an ADDI decodes to that ADDI (R49, R56). -/
theorem decodeWord_encode_addi (rd rs1 : Selector) (imm : BitVec 12) :
    decodeWord (encode (.addi rd rs1 imm)) = .ok (.addi rd rs1 imm) := by
  obtain ⟨hrd, hf3, hrs1, himm⟩ := fields_of_layout imm rs1 0b000#3 rd opImm
  have hop := opcodeOf_encode_addi rd rs1 imm
  rw [decodeWord, if_neg (by rw [hop]; decide), if_pos hop, encode, hrd, hf3, hrs1, himm, if_pos rfl]

/-! ### imm_ADDI by the number of its pattern (R51) -/

/-- The signed reading of a 12-bit pattern: 4096 less where bit 11 is set. -/
theorem toInt_of_twelve_bits (v : BitVec 12) :
    v.toInt = if 0x800 ≤ v.toNat then (v.toNat : Int) - 4096 else v.toNat := by
  rw [BitVec.toInt_eq_toNat_cond]
  split <;> split <;> omega

/-- imm_ADDI modulo 2^XLEN, under both values of ADDI_IMM_EXT (R51, R84). -/
theorem addiImm_toNat (p : Params) (imm : BitVec 12) :
    ((addiImm p imm).toNat : Int) =
      (if p.immExt = .sign ∧ 0x800 ≤ imm.toNat then (imm.toNat : Int) - 4096 else imm.toNat) %
        2 ^ p.xlen.bits := by
  obtain ⟨hzero, hsign, -⟩ := addiImmediateWidening p imm
  cases hext : p.immExt with
  | zero =>
    have hlt : imm.toNat < 2 ^ p.xlen.bits :=
      imm.isLt.trans_le (Nat.pow_le_pow_right (by decide) (Nat.le_trans (by decide) p.xlen.thirtyTwo_le_bits))
    rw [hzero hext, if_neg (by simp)]
    exact_mod_cast (Nat.mod_eq_of_lt hlt).symm
  | sign => simp only [hsign hext, toInt_of_twelve_bits, true_and]

/-- The sum modulo 2^XLEN of a register's value and imm_ADDI (R84). -/
theorem Params.add_addiImm_toNat (p : Params) (a : Word) (imm : BitVec 12) :
    ((p.add a (addiImm p imm)).toNat : Int) = (a.toNat +
      (if p.immExt = .sign ∧ 0x800 ≤ imm.toNat then (imm.toNat : Int) - 4096 else imm.toNat)) %
        2 ^ p.xlen.bits := by
  rw [p.add_toNat]
  push_cast
  rw [addiImm_toNat, Int.add_emod_emod]

end Sys2Proof

namespace Sys2Proof.Machine

/-! ### A legal word from its FETCH step through its WRITEBACK step (R70, R79) -/

/-- A run goes on from what its first step answers. -/
theorem steps_succ_of_next {n : Nat} {s t : State} {o : Host.Outcome State Fault Refusal} (h : step s = .next t)
    (hrest : steps n t = o) : steps (n + 1) s = o := by
  rw [steps, h]
  exact hrest

/-- DECODE of a legal word only advances the phase (R72). -/
theorem decodePhase_of_legal {d : DecodedControl} (h : d.illegal = false) (s : State) :
    decodePhase d s = { s with phase := .memAccess } := by
  simp [decodePhase, h]

/-- Five steps of a legal word: FETCH latches it and advances the PC, DECODE and MEMACCESS only advance the phase,
and EXECUTE and WRITEBACK act on its decoded control. -/
theorem steps_five_of_legal {s : State} {w : InstrWord} (hh : s.halted = false) (hp : s.phase = .fetch)
    (hw : s.mem.imem s.pc = some w) (hlegal : (decoder s.params w).illegal = false) :
    steps 5 s = .next (writebackPhase (decoder s.params w) (executePhase (decoder s.params w)
      { s with ir := w, pc := s.params.add s.pc 4#64, phase := .execute })) := by
  refine steps_succ_of_next (step_of_fetch hh hp hw) (steps_succ_of_next (step_of_decode hh rfl) ?_)
  rw [decodePhase_of_legal hlegal]
  exact steps_succ_of_next (step_of_memAccess hh rfl) <| steps_succ_of_next (step_of_execute hh rfl) <|
    steps_succ_of_next (step_of_writeback hh rfl) rfl

/-- Five steps of a word that adds to a register and does not branch: the sum of its operands is latched and
written to rd (R74, R76, R83, R84). -/
theorem steps_five_of_sum_to_rd {s : State} {w : InstrWord} {d : DecodedControl} (hh : s.halted = false)
    (hp : s.phase = .fetch) (hw : s.mem.imem s.pc = some w) (hd : decoder s.params w = d)
    (hlegal : d.illegal = false) (halu : d.aluEn = true) (hsrc : d.src1 = .rs1) (hwrite : d.regwrite = true)
    (hbranch : d.branchOffset = 0#64) :
    steps 5 s = .next { s with
      ir := w, pc := s.params.add s.pc 4#64, aluOut := s.params.add (s.regs.read d.rs1) (operand2 d s),
      regs := s.regs.write d.rd (s.params.add (s.regs.read d.rs1) (operand2 d s)) true,
      cycles := s.params.add s.cycles 1#64 } := by
  subst hd
  rw [steps_five_of_legal hh hp hw hlegal]
  simp [writebackPhase, executePhase, operand1, operand2, halu, hsrc, hwrite, hbranch, hp]

/-! ### What a write does to every register (R12, R14) -/

/-- The selectors that name no cell are 0 and 31 (R11). -/
theorem isMapped_eq_false_iff (sel : Selector) : isMapped sel = false ↔ sel = 0#5 ∨ sel = 31#5 := by
  revert sel
  decide

/-- An enabled write is dropped for selectors 0 and 31, and changes what its own selector reads and no other. -/
theorem RegFile.write_enabled_reads (r : RegFile) (rd : Selector) (v : Word) :
    (rd = 0#5 ∨ rd = 31#5 → r.write rd v true = r) ∧
      (rd ≠ 0#5 → rd ≠ 31#5 → (r.write rd v true).read rd = v) ∧
      (∀ sel, sel ≠ rd → (r.write rd v true).read sel = r.read sel) := by
  rw [← isMapped_eq_false_iff]
  refine ⟨fun h => r.write_unmapped h v true, fun h0 h31 => ?_, fun _ hne => r.read_write_other hne v true⟩
  have hmapped : isMapped rd ≠ false := by simp [isMapped_eq_false_iff, h0, h31]
  exact r.read_write_same (Bool.eq_true_of_not_eq_false hmapped) v

/-! ### The net effects of ADD and ADDI (41_integer.md) -/

/-- Settles O25: the word's row, its decoded control, and the five steps of a sum of two registers. -/
theorem addNetEffect : Obligations.AddNetEffect := by
  intro funct3 rd rs1 rs2 s hh hp hw
  have hd := decoder_of_add s.params (decodeWord_encode_add funct3 rd rs1 rs2)
  exact ⟨Laws.TableRow.add funct3 rd rs1 rs2, hd, s.params.add (s.regs.read rs1) (s.regs.read rs2),
    s.params.add_toNat _ _, steps_five_of_sum_to_rd hh hp hw hd rfl rfl rfl rfl rfl,
    s.regs.write_enabled_reads rd _⟩

/-- Settles O26: as ADD, with the widened immediate as the second operand. -/
theorem addiNetEffect : Obligations.AddiNetEffect := by
  intro rd rs1 imm s hh hp hw
  have hdec := decodeWord_encode_addi rd rs1 imm
  have hd := decoder_of_addi s.params hdec
  refine ⟨Laws.TableRow.addi rd rs1 imm, ?_, s.params.add (s.regs.read rs1) (addiImm s.params imm),
    s.params.add_addiImm_toNat _ imm, steps_five_of_sum_to_rd hh hp hw hd rfl rfl rfl rfl rfl,
    s.regs.write_enabled_reads rd _⟩
  have hrs2 : imm.extractLsb' 0 5 = rs2Of (encode (.addi rd rs1 imm)) := by
    rw [← immIOf_extract_rs2, encode]
    simp [fields_of_layout]
  rw [hd, addiControl, hrs2]
  rfl

end Sys2Proof.Machine

namespace Sys2Proof

/-! ### The fields of an encoded JAL (R50) -/

/-- rd of a JAL's word is its destination. -/
theorem rdOf_encode_jal (rd : Selector) (off : BitVec 21) : rdOf (encode (.jal rd off)) = rd := by
  rw [rdOf, encode, BitVec.extractLsb'_append_eq_of_le (by decide)]
  exact BitVec.extractLsb'_append_eq_right

/-- imm_J of a JAL's word is its offset: bit by bit, bit 0 being 0 in both. -/
theorem immJOf_encode_jal (rd : Selector) {off : BitVec 21} (heven : off.getLsbD 0 = false) :
    immJOf (encode (.jal rd off)) = off := by
  apply BitVec.eq_of_getLsbD_eq
  intro i hi
  cases i with
  | zero => rw [immJOf_bit_zero, heven]
  | succ i =>
    have hi' : i < 20 := Nat.lt_of_succ_lt_succ hi
    simp only [immJOf, encode, BitVec.getLsbD_append, BitVec.getLsbD_extractLsb']
    interval_cases i <;> simp

/-- The word of a JAL with an even offset decodes to that JAL (R50, R58). -/
theorem decodeWord_encode_jal {rd : Selector} {off : BitVec 21} (hwf : (Instr.jal rd off).wf = true) :
    decodeWord (encode (.jal rd off)) = .ok (.jal rd off) := by
  have hop := opcodeOf_encode_jal rd off
  have himm := immJOf_encode_jal rd (off := off) (by simpa [Instr.wf] using hwf)
  rw [decodeWord, if_neg (by rw [hop]; decide), if_neg (by rw [hop]; decide), if_pos hop, rdOf_encode_jal, himm]

/-! ### The target of a JAL by its number (R52, R88) -/

/-- The target of a JAL at an address: the signed offset added modulo 2^XLEN. -/
theorem Params.add_jalOffset_toNat (p : Params) (a : Word) (off : BitVec 21) :
    ((p.add a (jalOffset p off)).toNat : Int) = (a.toNat + off.toInt) % 2 ^ p.xlen.bits := by
  rw [p.add_toNat]
  push_cast
  rw [jalOffset, p.sext_toNat, Int.add_emod_emod]

/-- What EXECUTE leaves in the PC: the target, whether or not the branch offset is 0 (R75, R88). -/
theorem jal_executed_pc (p : Params) (a : Word) (off : BitVec 21) :
    (if jalBranchOffset p off = 0#64 then p.add a 4#64 else p.add (p.add a 4#64) (jalBranchOffset p off)) =
      p.add a (jalOffset p off) := by
  split
  · next hzero => exact jal_target_of_zero_offset p a off hzero
  · exact jal_compensation p a off

end Sys2Proof

namespace Sys2Proof.Machine

/-! ### The decoded control of JAL, output by output (R61, R62, R87) -/

section

variable (p : Params) (rd : Selector) (off : BitVec 21)

@[simp] theorem jalControl_illegal : (jalControl p rd off).illegal = false := by
  by_cases h : rd = 0#5 <;> simp [jalControl, DecodedControl.base, h]

@[simp] theorem jalControl_rd : (jalControl p rd off).rd = rd := by
  by_cases h : rd = 0#5 <;> simp [jalControl, DecodedControl.base, h]

@[simp] theorem jalControl_branchOffset : (jalControl p rd off).branchOffset = jalBranchOffset p off := by
  by_cases h : rd = 0#5 <;> simp [jalControl, h]

@[simp] theorem jalControl_aluEn : (jalControl p rd off).aluEn = (rd != 0#5) := by
  by_cases h : rd = 0#5 <;> simp [jalControl, DecodedControl.base, h]

@[simp] theorem jalControl_regwrite : (jalControl p rd off).regwrite = (rd != 0#5) := by
  by_cases h : rd = 0#5 <;> simp [jalControl, DecodedControl.base, h]

end

/-- The operands of a JAL that links are the PC value JAL_LINK selects and the constant 0. -/
theorem jalControl_sources (p : Params) {rd : Selector} (hrd : rd ≠ 0#5) (off : BitVec 21) :
    (jalControl p rd off).src1 = .pc ∧ (jalControl p rd off).src2 = .zero := by
  simp [jalControl, hrd]

/-! ### The link value and the execution of JAL (R87 to R89) -/

/-- The link value of a JAL at address `a`: the next address or the target, as JAL_LINK says (R89). -/
def linkValue (p : Params) (a : Word) (off : BitVec 21) : Word :=
  match p.jalLink with
  | .next => p.add a 4#64
  | .target => p.add a (jalOffset p off)

theorem linkValue_of_next {p : Params} (h : p.jalLink = .next) (a : Word) (off : BitVec 21) :
    linkValue p a off = p.add a 4#64 := by
  simp [linkValue, h]

theorem linkValue_of_target {p : Params} (h : p.jalLink = .target) (a : Word) (off : BitVec 21) :
    linkValue p a off = p.add a (jalOffset p off) := by
  simp [linkValue, h]

/-- In the EXECUTE step of a JAL at `a` that links, the ALU passes the link value through (R74, R89). -/
theorem alu_of_jal {s : State} {a : Word} {rd : Selector} (hrd : rd ≠ 0#5) (off : BitVec 21)
    (hpc : s.pc = s.params.add a 4#64) :
    s.params.add (operand1 (jalControl s.params rd off) s) (operand2 (jalControl s.params rd off) s) =
      linkValue s.params a off := by
  obtain ⟨hsrc1, hsrc2⟩ := jalControl_sources s.params hrd off
  rw [operand1_eq_ite, operand2_eq_ite, hsrc1, hsrc2, jalControl_branchOffset, hpc, jal_compensation]
  cases hlink : s.params.jalLink with
  | next => simp [linkValue_of_next hlink]
  | target => simp [linkValue_of_target hlink]

/-- EXECUTE of a JAL at `a`: the PC is the target, and the link value is latched unless rd is 0. -/
theorem executePhase_of_jal {s : State} {a : Word} (rd : Selector) (off : BitVec 21)
    (hpc : s.pc = s.params.add a 4#64) :
    executePhase (jalControl s.params rd off) s = { s with
      aluOut := if rd = 0#5 then s.aluOut else linkValue s.params a off,
      pc := s.params.add a (jalOffset s.params off), phase := .writeback } := by
  have hnext := jal_executed_pc s.params a off
  by_cases hrd : rd = 0#5
  · simp [executePhase, hrd, hpc, hnext]
  · simp [executePhase, hrd, alu_of_jal hrd off hpc, hpc, hnext]

/-- The write enable of a JAL decides nothing: the one selector it leaves out names no cell. -/
theorem RegFile.write_unless_zero (r : RegFile) (rd : Selector) (v : Word) :
    r.write rd v (rd != 0#5) = r.write rd v true := by
  obtain rfl | hrd := eq_or_ne rd 0#5
  · have hunmapped : isMapped 0#5 = false := by decide
    rw [r.write_unmapped hunmapped, r.write_unmapped hunmapped]
  · rw [bne_iff_ne.mpr hrd]

/-- Five steps of a JAL: the PC is the target, and the link value is latched and written unless rd is 0. -/
theorem steps_five_of_jal {s : State} {w : InstrWord} {rd : Selector} {off : BitVec 21} (hh : s.halted = false)
    (hp : s.phase = .fetch) (hw : s.mem.imem s.pc = some w)
    (hd : decoder s.params w = jalControl s.params rd off) :
    steps 5 s = .next { s with
      ir := w, pc := s.params.add s.pc (jalOffset s.params off),
      aluOut := if rd = 0#5 then s.aluOut else linkValue s.params s.pc off,
      regs := s.regs.write rd (linkValue s.params s.pc off) (rd != 0#5),
      cycles := s.params.add s.cycles 1#64 } := by
  have hexec := executePhase_of_jal (a := s.pc) (rd := rd) (off := off)
    (s := { s with ir := w, pc := s.params.add s.pc 4#64, phase := .execute }) rfl
  rw [steps_five_of_legal hh hp hw (by rw [hd, jalControl_illegal]), hd, hexec]
  by_cases hrd : rd = 0#5 <;> simp [writebackPhase, hrd, hp]

/-- Settles O27: the word's row and decoded control, the target and the link value by their numbers, and the five
steps. The target is A + off_J and the link value the one JAL_LINK selects, as the spec decides (R88, R89; D8, D9). -/
theorem jalNetEffect : Obligations.JalNetEffect := by
  intro rd off s hwf hh hp hw
  have hd := decoder_of_jal s.params (decodeWord_encode_jal hwf)
  have hsteps := steps_five_of_jal hh hp hw hd
  have hreads := s.regs.write_enabled_reads rd (linkValue s.params s.pc off)
  rw [← RegFile.write_unless_zero] at hreads
  rw [hd]
  refine ⟨Laws.TableRow.jal rd off, jalControl_branchOffset .., jalControl_aluEn .., jalControl_regwrite ..,
    fun hrd => jalControl_sources s.params hrd off, s.params.add s.pc (jalOffset s.params off),
    linkValue s.params s.pc off, s.params.add_jalOffset_toNat s.pc off, fun hnext => ?_,
    fun htarget => linkValue_of_target htarget s.pc off, hsteps, hreads⟩
  rw [linkValue_of_next hnext]
  exact s.params.add_toNat s.pc 4#64

end Sys2Proof.Machine

namespace Sys2Proof.Machine

/-! ### A halted core (R94) -/

/-- Every run of a halted core ends in the state it began in. -/
theorem steps_of_halted {s : State} (h : s.halted = true) (n : Nat) : steps n s = .next s := by
  induction n with
  | zero => rfl
  | succ n ih => exact steps_succ_of_next (step_of_halted h) ih

/-- Settles O33: a halted core's step changes nothing, and so no run of such steps does. -/
theorem haltedCoreIsFrozen : Obligations.HaltedCoreIsFrozen :=
  fun _ h => ⟨step_of_halted h, steps_of_halted h⟩

end Sys2Proof.Machine

namespace Sys2Proof

/-- Adding an XLEN-bit value to 0 gives that value: nothing is cut off. -/
theorem Params.zero_add_of_fits {p : Params} {w : Word} (h : p.fits w) : p.add 0#64 w = w := by
  rw [Params.add, BitVec.zero_add, p.wrap_of_fits h]

/-- The length of an instruction in bytes is an XLEN-bit value. -/
theorem Params.four_fits (p : Params) : p.fits 4#64 := by
  rw [Params.fits_iff]
  calc (4#64 : Word).toNat < 2 ^ 32 := by decide
    _ ≤ 2 ^ p.xlen.bits := Nat.pow_le_pow_right (by decide) p.xlen.thirtyTwo_le_bits

end Sys2Proof

namespace Sys2Proof.Machine

/-! ### The reset state (70_reset_and_hazards.md) -/

/-- PROGRAM[0] lies at address 0, and nothing does when PROGRAM is empty (R34, R41). -/
theorem Memory.imem_ofWords_zero (program : List InstrWord) : (Memory.ofWords program).imem 0#64 = program[0]? := by
  cases program with
  | nil => rfl
  | cons w ws =>
    simp [Memory.imem, Memory.readWord, Memory.readByte, Memory.ofWords, Memory.ofWordsFrom, wordOfBytes_byteOf]

/-- The two selectors that name no cell read 0 (R12, D4). -/
theorem RegFile.read_zero_and_thirtyOne (r : RegFile) : r.read 0#5 = 0#64 ∧ r.read 31#5 = 0#64 :=
  ⟨r.read_of_unmapped (by decide), r.read_of_unmapped (by decide)⟩

/-- No enable line is asserted in FETCH (R24). -/
theorem State.enableLines_of_fetch {s : State} (h : s.phase = .fetch) :
    s.aluEnableLine = false ∧ s.writeEnableLine = false := by
  simp [State.aluEnableLine, State.writeEnableLine, h]

/-- The first step of a core with a word to fetch latches PROGRAM[0] and advances the PC from 0 to 4 (R71, R109). -/
theorem step_of_initial (p : Params) {program : List InstrWord} (regInit : RegFile) (irInit : InstrWord)
    (aluInit : Word) {w : InstrWord} (hw : program[0]? = some w) :
    step (State.initial p program regInit irInit aluInit) =
      .next { State.initial p program regInit irInit aluInit with ir := w, pc := 4#64, phase := .decode } := by
  have hfetch : (State.initial p program regInit irInit aluInit).mem.imem 0#64 = some w := by
    rw [State.initial_mem, Memory.imem_ofWords_zero, hw]
  have hpc : (State.initial p program regInit irInit aluInit).params.add
      (State.initial p program regInit irInit aluInit).pc 4#64 = 4#64 := Params.zero_add_of_fits p.four_fits
  rw [step_of_fetch rfl rfl hfetch, hpc]

/-- Settles O37: the fields are those State.initial names, what is read off them follows from FETCH and from the
image of PROGRAM, and the first step is a FETCH of its first word. -/
theorem constructedCoreIsInTheResetState : Obligations.ConstructedCoreIsInTheResetState := by
  intro p program regInit irInit aluInit
  obtain ⟨hx0, hx31⟩ := regInit.read_zero_and_thirtyOne
  obtain ⟨halu, hwrite⟩ := State.enableLines_of_fetch (State.initial_phase p program regInit irInit aluInit)
  exact ⟨rfl, rfl, rfl, rfl, rfl, hx0, hx31, halu, hwrite, Memory.programLength_ofWords program,
    fun _ => step_of_initial p regInit irInit aluInit⟩

end Sys2Proof.Machine

namespace Sys2Proof

/-! ### Decoding an encoding (30_encoding.md sections 1, 2 and 4) -/

/-- The word of a well-formed instruction decodes to that instruction. -/
theorem decodeWord_encode {i : Instr} (hwf : i.wf = true) : decodeWord (encode i) = .ok i := by
  cases i with
  | add => exact decodeWord_encode_add ..
  | addi => exact decodeWord_encode_addi ..
  | jal => exact decodeWord_encode_jal hwf

/-- At the head of a byte sequence, the four bytes of a word decode as the word does (R39). -/
theorem decode_bytesOfWord {w : InstrWord} {i : Instr} (h : decodeWord w = .ok i) (rest : List Byte) :
    decode (bytesOfWord w ++ rest) = .ok (i, rest) := by
  simp only [bytesOfWord, List.cons_append, List.nil_append, decode, Machine.wordOfBytes_byteOf, h]

/-- Settles O1: the round trip of the word, which its bytes inherit. -/
theorem decodeOfEncodeGivesTheInstruction : Obligations.DecodeOfEncodeGivesTheInstruction :=
  fun _ rest hwf => ⟨decodeWord_encode hwf, decode_bytesOfWord (decodeWord_encode hwf) rest⟩

/-! ### Encoding what was decoded (30_encoding.md sections 2 and 4) -/

/-- A word is its six R-format fields in a row (R47, R48). -/
theorem append_fields (w : InstrWord) :
    funct7Of w ++ rs2Of w ++ rs1Of w ++ funct3Of w ++ rdOf w ++ opcodeOf w = w := by
  have slices {hi lo len : Nat} (len' : Nat) (h : hi = lo + len) :=
    BitVec.extractLsb'_append_extractLsb'_eq_extractLsb' (x := w) (len₂ := len') h
  simp only [funct7Of, rs2Of, rs1Of, funct3Of, rdOf, opcodeOf]
  rw [slices 7 (by decide : 25 = 20 + 5), slices 12 (by decide : 20 = 15 + 5), slices 17 (by decide : 15 = 12 + 3),
    slices 20 (by decide : 12 = 7 + 5), slices 25 (by decide : 7 = 0 + 7)]
  exact BitVec.extractLsb'_eq_self

/-- imm_I is funct7 and rs2 in a row (R47, R49). -/
theorem immIOf_eq_append (w : InstrWord) : immIOf w = funct7Of w ++ rs2Of w :=
  (BitVec.extractLsb'_append_extractLsb'_eq_extractLsb' (by decide : 25 = 20 + 5)).symm

/-- The J format lays the slices of imm_J back where R50 takes them from. -/
theorem encode_jal_of_fields {w : InstrWord} (hop : opcodeOf w = opJal) : encode (.jal (rdOf w) (immJOf w)) = w := by
  rw [encode, ← hop]
  apply BitVec.eq_of_getLsbD_eq
  intro i hi
  simp only [immJOf, rdOf, opcodeOf, BitVec.getLsbD_append, BitVec.getLsbD_extractLsb']
  interval_cases i <;> simp

/-- The word of a decoded instruction is the word it was decoded from. -/
theorem encode_of_decodeWord {w : InstrWord} {i : Instr} (h : decodeWord w = .ok i) : encode i = w := by
  unfold decodeWord at h
  split at h
  · next hop =>
    split at h
    · next hf7 =>
      cases h
      rw [encode, ← hf7, ← hop, append_fields]
    · cases h
  · split at h
    · next hop =>
      split at h
      · next hf3 =>
        cases h
        rw [encode, immIOf_eq_append, ← hf3, ← hop, append_fields]
      · cases h
    · split at h
      · next hop =>
        cases h
        exact encode_jal_of_fields hop
      · cases h

/-- Settles O2: the other direction of the round trip. -/
theorem legalWordIsItsInstructionsEncoding : Obligations.LegalWordIsItsInstructionsEncoding :=
  fun _ _ h => ⟨Machine.wf_of_decodeWord h, encode_of_decodeWord h⟩

/-! ### The rows of the opcode table (30_encoding.md sections 4 and 6) -/

/-- A slice of a word under a mask that covers it is read off the match. -/
theorem extractLsb'_of_masked {w mask pattern : InstrWord} (h : w &&& mask = pattern) {start len : Nat}
    (hmask : mask.extractLsb' start len = BitVec.allOnes len) :
    w.extractLsb' start len = pattern.extractLsb' start len := by
  rw [← h, BitVec.extractLsb'_and, hmask, BitVec.and_allOnes]

/-- The row of ADD (R54). -/
theorem decodeWord_add_iff (w : InstrWord) :
    (∃ funct3 rd rs1 rs2, decodeWord w = .ok (.add funct3 rd rs1 rs2)) ↔
      w &&& 0xFE00007F#32 = 0x00000033#32 := by
  constructor
  · rintro ⟨funct3, rd, rs1, rs2, h⟩
    exact encode_of_decodeWord h ▸ Laws.TableRow.add funct3 rd rs1 rs2
  · intro h
    have hop : opcodeOf w = opReg := extractLsb'_of_masked h (by decide)
    have hf7 : funct7Of w = 0#7 := extractLsb'_of_masked h (by decide)
    exact ⟨_, _, _, _, by rw [decodeWord, if_pos hop, if_pos hf7]⟩

/-- The row of ADDI (R56). -/
theorem decodeWord_addi_iff (w : InstrWord) :
    (∃ rd rs1 imm, decodeWord w = .ok (.addi rd rs1 imm)) ↔ w &&& 0x0000707F#32 = 0x00000013#32 := by
  constructor
  · rintro ⟨rd, rs1, imm, h⟩
    exact encode_of_decodeWord h ▸ Laws.TableRow.addi rd rs1 imm
  · intro h
    have hop : opcodeOf w = opImm := extractLsb'_of_masked h (by decide)
    have hf3 : funct3Of w = 0#3 := extractLsb'_of_masked h (by decide)
    exact ⟨_, _, _, by rw [decodeWord, if_neg (by rw [hop]; decide), if_pos hop, if_pos hf3]⟩

/-- The row of JAL (R58). -/
theorem decodeWord_jal_iff (w : InstrWord) :
    (∃ rd off, decodeWord w = .ok (.jal rd off)) ↔ w &&& 0x0000007F#32 = 0x0000006F#32 := by
  constructor
  · rintro ⟨rd, off, h⟩
    exact encode_of_decodeWord h ▸ Laws.TableRow.jal rd off
  · intro h
    have hop : opcodeOf w = opJal := extractLsb'_of_masked h (by decide)
    exact ⟨_, _, by rw [decodeWord, if_neg (by rw [hop]; decide), if_neg (by rw [hop]; decide), if_pos hop]⟩

/-- A word is illegal exactly when it decodes to none of the three instructions. -/
theorem decodeWord_error_iff (w : InstrWord) :
    (∃ e, decodeWord w = .error e) ↔
      w &&& 0xFE00007F#32 ≠ 0x00000033#32 ∧ w &&& 0x0000707F#32 ≠ 0x00000013#32 ∧
        w &&& 0x0000007F#32 ≠ 0x0000006F#32 := by
  rw [Ne, Ne, Ne, ← decodeWord_add_iff, ← decodeWord_addi_iff, ← decodeWord_jal_iff]
  cases h : decodeWord w with
  | error e => simp
  | ok i => cases i <;> simp

/-- Every row fixes bits 1..0 to 11 (R64). -/
theorem low_bits_of_masked {w mask pattern : InstrWord} (h : w &&& mask = pattern) (hmask : mask &&& 3#32 = 3#32)
    (hpattern : pattern &&& 3#32 = 3#32) : w &&& 3#32 = 3#32 := by
  rw [← hmask, ← BitVec.and_assoc, h, hpattern, hmask]

/-- Settles O3: the three rows, their complement, and the low bits the rows share. -/
theorem legalWordsAreTheOpcodeTableRows : Obligations.LegalWordsAreTheOpcodeTableRows := by
  refine fun w => ⟨decodeWord_add_iff w, decodeWord_addi_iff w, decodeWord_jal_iff w, decodeWord_error_iff w,
    fun hlow => (decodeWord_error_iff w).mpr ⟨fun h => hlow ?_, fun h => hlow ?_, fun h => hlow ?_⟩⟩
  · exact low_bits_of_masked h (by decide) (by decide)
  · exact low_bits_of_masked h (by decide) (by decide)
  · exact low_bits_of_masked h (by decide) (by decide)

/-! ### The bits of imm_J (R50) -/

/-- Settles O5: each slice of imm_J, bit by bit. -/
theorem jalImmediateSlices : Obligations.JalImmediateSlices := by
  intro w
  simp only [immJOf, BitVec.getLsbD_append, BitVec.getLsbD_extractLsb']
  refine ⟨by simp, fun k hlo hhi => ?_, by simp, fun k hlo hhi => ?_, by simp⟩
  · interval_cases k <;> simp
  · interval_cases k <;> simp

/-- Settles O4: each word is decoded by evaluation. -/
theorem writtenOutWordsDecode : Obligations.WrittenOutWordsDecode := by
  unfold Obligations.WrittenOutWordsDecode
  decide

end Sys2Proof

namespace Sys2Proof.Machine

/-! ### The decoder's outputs for an encoded instruction (30_encoding.md section 5) -/

/-- An ADDI's rs2 output, w[24:20], is the low part of its immediate (R47). -/
theorem rs2Of_encode_addi (rd rs1 : Selector) (imm : BitVec 12) :
    rs2Of (encode (.addi rd rs1 imm)) = imm.extractLsb' 0 5 := by
  rw [← immIOf_extract_rs2, encode]
  simp [fields_of_layout]

/-- The control record of a JAL by the fields of its word: its unused selector outputs are w[19:15] and w[24:20]
(R47, R61, R62). -/
theorem jalControl_of_word {rd : Selector} {off : BitVec 21} (p : Params) (hwf : (Instr.jal rd off).wf = true) :
    jalControl p rd off =
      { illegal := false, aluEn := rd != 0#5, aluOp := .add, src1 := if rd = 0#5 then .rs1 else .pc,
        src2 := if rd = 0#5 then .rs2 else .zero, imm := 0#64, rs1 := rs1Of (encode (.jal rd off)),
        rs2 := rs2Of (encode (.jal rd off)), rd := rd, regwrite := rd != 0#5,
        branchOffset := p.sub (jalOffset p off) 4#64 } := by
  have himm := immJOf_encode_jal rd (off := off) (by simpa [Instr.wf] using hwf)
  rw [← immJOf_extract_rs1, ← immJOf_extract_rs2, himm]
  by_cases hrd : rd = 0#5 <;> simp [jalControl, DecodedControl.base, jalBranchOffset, hrd]

/-- Settles O8: the word of an instruction decodes to it, and the decoder's output for a word that decodes, or does
not, is a control record already known (D8 and D16 are in the JAL record). -/
theorem decoderOutputsOfEveryWord : Obligations.DecoderOutputsOfEveryWord := by
  refine ⟨fun p funct3 rd rs1 rs2 => ?_, fun p rd rs1 imm => ?_, fun p rd off hwf hrd => ?_, fun p off hwf => ?_,
    fun p w e h => ?_⟩
  · exact decoder_of_add p (decodeWord_encode_add ..)
  · rw [decoder_of_addi p (decodeWord_encode_addi ..), rs2Of_encode_addi]
    rfl
  · rw [decoder_of_jal p (decodeWord_encode_jal hwf), jalControl_of_word p hwf, if_neg hrd, if_neg hrd,
      bne_iff_ne.mpr hrd]
  · rw [decoder_of_jal p (decodeWord_encode_jal hwf), jalControl_of_word p hwf]
    rfl
  · exact decoder_of_error p h

end Sys2Proof.Machine

namespace Sys2Proof

/-! ### The two readings of the link value (R89) -/

/-- Two sums with one left operand agree exactly when the right operands agree modulo 2^XLEN. -/
theorem Params.add_right_eq_iff (p : Params) (a b c : Word) :
    p.add a b = p.add a c ↔ b.toNat % 2 ^ p.xlen.bits = c.toNat % 2 ^ p.xlen.bits := by
  rw [← BitVec.toNat_inj, p.add_toNat, p.add_toNat]
  exact ⟨Nat.ModEq.add_left_cancel' a.toNat, Nat.ModEq.add_left a.toNat⟩

/-- Settles O28: both offsets are below 2^21 in absolute value, so they agree modulo 2^XLEN only when they are
equal. -/
theorem linkReadingsAgreeOnlyAtOffsetFour : Obligations.LinkReadingsAgreeOnlyAtOffsetFour := by
  intro p a off
  have hwide : (2 : Int) ^ 32 ≤ 2 ^ p.xlen.bits := by
    exact_mod_cast Nat.pow_le_pow_right (by decide) p.xlen.thirtyTwo_le_bits
  have hlo := off.le_toInt
  have hhi := off.toInt_lt
  norm_num at hwide hlo hhi
  have hoff : off = 4#21 ↔ off.toInt = 4 := by rw [← BitVec.toInt_inj]; rfl
  rw [p.add_right_eq_iff, hoff, ← Int.natCast_inj]
  push_cast
  rw [jalOffset, p.sext_toNat, Int.emod_emod, Int.emod_eq_emod_iff_emod_sub_eq_zero]
  constructor
  · intro h
    have hzero := Int.eq_zero_of_abs_lt_dvd (Int.dvd_of_emod_eq_zero h) (abs_lt.mpr ⟨by omega, by omega⟩)
    omega
  · intro h
    simp [h]

/-! ### Assembled operands (30_encoding.md section 7) -/

/-- The pattern of an integer holds the integer modulo 2^n. -/
theorem ofInt_toNat_cast (n : Nat) (i : Int) : ((BitVec.ofInt n i).toNat : Int) = i % 2 ^ n := by
  rw [BitVec.toNat_ofInt]
  push_cast
  exact Int.toNat_of_nonneg (Int.emod_nonneg _ (by positivity))

namespace Machine

/-- The offset of an assembled JAL reads back as the byte offset written, and is well-formed (R50, R52). -/
theorem ofInt_jal_offset {offset : Int} (heven : offset % 2 = 0) (hlo : -1048576 ≤ offset)
    (hhi : offset ≤ 1048574) (rd : Selector) :
    (BitVec.ofInt 21 offset).toInt = offset ∧ (Instr.jal rd (BitVec.ofInt 21 offset)).wf = true := by
  have hnum := ofInt_toNat_cast 21 offset
  constructor
  · rw [BitVec.toInt_eq_toNat_cond]
    split <;> omega
  · have hbit : (BitVec.ofInt 21 offset).toNat % 2 = 0 := by omega
    simp only [Instr.wf, BitVec.getLsbD, Nat.testBit_zero, hbit, zero_ne_one, decide_false, Bool.not_false]

/-- Settles O47: the patterns are the integers modulo 2^12 and 2^21, and the ranges are those the assembler tests. -/
theorem assembledOperandsReadBack : Obligations.AssembledOperandsReadBack := by
  refine ⟨fun rd rs1 imm hlo hhi => ?_, fun rd rs1 k hlo hhi => ?_, fun rd offset heven hlo hhi => ?_,
    fun rd offset hout => ?_, fun rd rs1 imm hout => ?_⟩
  · refine ⟨_, if_pos (by omega), ?_⟩
    rw [ofInt_toNat_cast]
    omega
  · refine ⟨_, if_pos (by omega), ?_⟩
    rw [ofInt_toNat_cast]
    omega
  · exact ⟨_, if_pos ⟨heven, hlo, hhi⟩, ofInt_jal_offset heven hlo hhi rd⟩
  · exact if_neg (by omega)
  · exact if_neg (by omega)

end Machine

end Sys2Proof

namespace Sys2Proof.Machine

/-! ### A register read after a write (R12, R14) -/

/-- What every selector reads after the write port is driven. -/
theorem RegFile.read_write (r : RegFile) (sel : Selector) (v : Word) (enable : Bool) (sel' : Selector) :
    (r.write sel v enable).read sel' =
      if enable = true ∧ sel' = sel ∧ isMapped sel = true then v else r.read sel' := by
  split
  · next h =>
    obtain ⟨rfl, rfl, hm⟩ := h
    exact r.read_write_same hm v
  · next h =>
    by_cases hsel : sel' = sel
    · have hdropped : ¬ (enable = true ∧ isMapped sel = true) := fun ⟨he, hm⟩ => h ⟨he, hsel, hm⟩
      simp [RegFile.write, hdropped]
    · exact r.read_write_other hsel v enable

/-- Settles O10: a read after a write, the guard of the port, and the cells the selectors read (for selector 31,
D4). -/
theorem registerFileReadAfterWrite : Obligations.RegisterFileReadAfterWrite := by
  intro r sel v enable
  obtain ⟨hx0, hx31⟩ := r.read_zero_and_thirtyOne
  refine ⟨fun sel' => ?_, fun hdropped => ?_, r.read_cell, hx0, hx31⟩
  · simp only [r.read_write, isMapped_iff]
  · rw [r.write_eq_ite, if_neg hdropped]

/-! ### The word a fetch reads (20_memory.md section 1) -/

/-- A fetch reads the word at index addr >> 2, the address's quotient by 4 (R35). -/
theorem Memory.imem_eq_readWord (m : Memory) (addr : Word) : m.imem addr = m.readWord (addr.toNat / 4) := by
  rw [Memory.imem, BitVec.toNat_ushiftRight, Nat.shiftRight_eq_div_pow]

/-- The word at an index whose four bytes are listed (R39). -/
theorem Memory.readWord_eq_some {m : Memory} {index : Nat} {b0 b1 b2 b3 : Byte}
    (h0 : m.readByte (4 * index) = some b0) (h1 : m.readByte (4 * index + 1) = some b1)
    (h2 : m.readByte (4 * index + 2) = some b2) (h3 : m.readByte (4 * index + 3) = some b3) :
    m.readWord index = some (wordOfBytes b0 b1 b2 b3) := by
  rw [Memory.readWord, h0, h1, h2, h3]

/-- A byte at or above the second word's address is one of the words after the first. -/
theorem Memory.readByte_ofWordsFrom_cons {index a : Nat} (w : InstrWord) (ws : List InstrWord)
    (h : 4 * (index + 1) ≤ a) :
    (Memory.ofWordsFrom index (w :: ws)).readByte a = (Memory.ofWordsFrom (index + 1) ws).readByte a := by
  have h0 : a ≠ 4 * index := by omega
  have hskip (j : Nat) (hj : j < 4) : a ≠ 4 * index + j := by omega
  simp only [Memory.ofWordsFrom, Memory.readByte, if_neg h0, if_neg (hskip 1 (by decide)),
    if_neg (hskip 2 (by decide)), if_neg (hskip 3 (by decide))]

/-- The image of a list of words holds the k-th word at the k-th index from its first. -/
theorem Memory.readWord_ofWordsFrom (index : Nat) (ws : List InstrWord) (k : Nat) :
    (Memory.ofWordsFrom index ws).readWord (index + k) = ws[k]? := by
  induction ws generalizing index k with
  | nil => rfl
  | cons w ws ih =>
    cases k with
    | zero => simp [Memory.ofWordsFrom, Memory.readWord, Memory.readByte, wordOfBytes_byteOf]
    | succ k =>
      have hrest : 4 * (index + 1) ≤ 4 * (index + (k + 1)) := by omega
      rw [List.getElem?_cons_succ, ← ih, show index + 1 + k = index + (k + 1) by omega]
      simp only [Memory.readWord, Memory.readByte_ofWordsFrom_cons w ws hrest,
        Memory.readByte_ofWordsFrom_cons w ws (Nat.le_add_right_of_le hrest)]

/-- A fetch from the image of PROGRAM reads PROGRAM[addr >> 2] (R35, R36). -/
theorem Memory.imem_ofWords (program : List InstrWord) (addr : Word) :
    (Memory.ofWords program).imem addr = program[addr.toNat / 4]? := by
  rw [Memory.imem_eq_readWord, Memory.ofWords, ← Memory.readWord_ofWordsFrom 0, Nat.zero_add]

/-- A run whose first step faults has faulted, however many steps are asked for. -/
theorem steps_succ_of_fault {n : Nat} {s : State} {f : Fault} (h : step s = .fault f) :
    steps (n + 1) s = .fault f := by
  simp only [steps, h]

/-- Settles O12: what the image of PROGRAM holds, and the FETCH step at an index it does not hold (D13). -/
theorem fetchReadsTheProgramOrFaults : Obligations.FetchReadsTheProgramOrFaults := by
  refine fun program => ⟨Memory.imem_ofWords program, fun s hmem hh hp hbeyond n => ?_⟩
  have hnone : s.mem.imem s.pc = none := by
    rw [hmem, Memory.imem_ofWords, List.getElem?_eq_none hbeyond]
  exact steps_succ_of_fault (step_of_fetch_none hh hp hnone)

/-- Settles O13: the four addresses of one word have one quotient by 4 (D12). -/
theorem fetchIgnoresTheLowAddressBits : Obligations.FetchIgnoresTheLowAddressBits := by
  intro m k j hk hj
  rw [Memory.imem_eq_readWord, Memory.imem_eq_readWord, BitVec.toNat_ofNat, BitVec.toNat_ofNat]
  congr 1
  omega

/-! ### Loading a word (log entries 6 and 12) -/

/-- The bits of a 32-bit table word are its number's. -/
theorem tableWord_thirtyTwo (w : Nat) : tableWord 32 w = BitVec.ofNat 32 w :=
  BitVec.eq_of_toNat_eq (by simp [tableWord])

/-- Settles O46: the word loaded is the one at the PC's index, and the load writes that index alone. -/
theorem loadedWordIsTheNextFetched : Obligations.LoadedWordIsTheNextFetched := by
  refine fun s w => ⟨?_, fun k hk => ?_, fun hwf => Memory.writeWord_wf hwf _ _⟩
  · have hw : (s.withFetchWord 32 w).mem.imem (s.withFetchWord 32 w).pc = some (BitVec.ofNat 32 w) := by
      rw [State.withFetchWord_mem, State.withFetchWord_pc, Memory.imem, Memory.readWord_writeWord_same,
        tableWord_thirtyTwo]
    exact step_of_fetch rfl rfl hw
  · refine Memory.readWord_writeWord_other s.mem _ _ ?_
    rwa [BitVec.toNat_ushiftRight, Nat.shiftRight_eq_div_pow]

/-! ### The program never changes (R44) -/

/-- Settles O39: no run changes the memory, so no fetch from it changes. -/
theorem programNeverChanges : Obligations.ProgramNeverChanges := by
  intro n s t h
  obtain ⟨hm, hp⟩ := steps_keep_mem_params h
  exact ⟨hm, hp, fun a => congrArg (Memory.imem · a) hm⟩

/-- Settles O38: both states have the same fields, and nothing is fetched from an empty memory. -/
theorem resetHasNothingLoaded : Obligations.ResetHasNothingLoaded :=
  ⟨rfl, step_of_fetch_none rfl rfl rfl⟩

end Sys2Proof.Machine

namespace Sys2Proof.Machine

/-! ### The control record an instruction runs on (R60, R83, R84, R87) -/

/-- The control record of an instruction: the decoder's outputs for its word. -/
def controlOf (p : Params) : Instr → DecodedControl
  | .add _ rd rs1 rs2 => addControl rd rs1 rs2
  | .addi rd rs1 imm => addiControl p rd rs1 imm
  | .jal rd off => jalControl p rd off

/-- An instruction's meaning is the phase of its control record. -/
theorem exec_eq_cycle (i : Instr) (s : State) : exec i s = .next (cycle (controlOf s.params i) s) := by
  cases i <;> rfl

/-- The decoder's outputs for a word that decodes are its instruction's control record. -/
theorem decoder_of_decodeWord {w : InstrWord} {i : Instr} (p : Params) (h : decodeWord w = .ok i) :
    decoder p w = controlOf p i := by
  cases i with
  | add => exact decoder_of_add p h
  | addi => exact decoder_of_addi p h
  | jal => exact decoder_of_jal p h

@[simp] theorem controlOf_illegal (p : Params) (i : Instr) : (controlOf p i).illegal = false := by
  cases i with
  | add => rfl
  | addi => rfl
  | jal rd off => exact jalControl_illegal p rd off

@[simp] theorem controlOf_rd (p : Params) (i : Instr) : (controlOf p i).rd = i.dest := by
  cases i with
  | add => rfl
  | addi => rfl
  | jal rd off => exact jalControl_rd p rd off

/-! ### What one phase does to each field (R71 to R77) -/

@[simp] theorem cycle_ir (d : DecodedControl) (s : State) : (cycle d s).ir = s.ir := by
  cases hp : s.phase with
  | fetch => simp [cycle_of_fetch hp]
  | decode => simp [cycle_of_decode hp]
  | memAccess => simp [cycle_of_memAccess hp]
  | execute => simp [cycle_of_execute hp]
  | writeback => simp [cycle_of_writeback hp]

/-- WRITEBACK drives the write port, and no other phase does (R15, R76). -/
theorem cycle_regs (d : DecodedControl) (s : State) :
    (cycle d s).regs = if s.phase = .writeback then s.regs.write d.rd s.aluOut d.regwrite else s.regs := by
  cases hp : s.phase with
  | fetch => simp [cycle_of_fetch hp]
  | decode => simp [cycle_of_decode hp]
  | memAccess => simp [cycle_of_memAccess hp]
  | execute => simp [cycle_of_execute hp]
  | writeback => simp [cycle_of_writeback hp]

/-- EXECUTE latches the result of an enabled ALU, and no other phase latches one (R74). -/
theorem cycle_aluOut (d : DecodedControl) (s : State) :
    (cycle d s).aluOut = if s.phase = .execute ∧ d.aluEn = true then
      s.params.add (operand1 d s) (operand2 d s) else s.aluOut := by
  cases hp : s.phase with
  | fetch => simp [cycle_of_fetch hp]
  | decode => simp [cycle_of_decode hp]
  | memAccess => simp [cycle_of_memAccess hp]
  | execute => simp [cycle_of_execute hp]
  | writeback => simp [cycle_of_writeback hp]

/-- Outside FETCH, EXECUTE alone writes the PC, and only with a nonzero branch offset (R75). -/
theorem cycle_pc_of_not_fetch (d : DecodedControl) {s : State} (h : s.phase ≠ .fetch) :
    (cycle d s).pc = if s.phase = .execute ∧ d.branchOffset ≠ 0#64 then
      s.params.add s.pc d.branchOffset else s.pc := by
  cases hp : s.phase with
  | fetch => exact absurd hp h
  | decode => simp [cycle_of_decode hp]
  | memAccess => simp [cycle_of_memAccess hp]
  | execute => simp [cycle_of_execute hp, ite_not]
  | writeback => simp [cycle_of_writeback hp]

/-- Everything a step of a running core that answers a next state can be: a FETCH, or a later phase of the word
already in `ir`. -/
theorem step_next_cases_of_running {s t : State} (hh : s.halted = false) (h : step s = .next t) :
    (s.phase = .fetch ∧ ∃ w, s.mem.imem s.pc = some w ∧
        t = { s with ir := w, pc := s.params.add s.pc 4#64, phase := .decode }) ∨
      (s.phase ≠ .fetch ∧ t = cycle (decoder s.params s.ir) s) := by
  by_cases hp : s.phase = .fetch
  · cases hw : s.mem.imem s.pc with
    | none => rw [step_of_fetch_none hh hp hw] at h; cases h
    | some w => exact .inl ⟨hp, w, rfl, Host.Outcome.next.inj (h.symm.trans (step_of_fetch hh hp hw))⟩
  · exact .inr ⟨hp, Host.Outcome.next.inj (h.symm.trans (step_of_not_fetch hh hp))⟩

/-! ### The two control lines (R15, R24, R26) -/

/-- The decoder's rd output is w[11:7] of every word (R60). -/
@[simp] theorem decoder_rd (p : Params) (w : InstrWord) : (decoder p w).rd = rdOf w := by
  simp [decoder, DecodedControl.base, apply_ite DecodedControl.rd]

theorem State.writeEnableLine_iff (s : State) :
    s.writeEnableLine = true ↔ s.phase = .writeback ∧ (decoder s.params s.ir).regwrite = true := by
  simp [State.writeEnableLine]

theorem State.aluEnableLine_iff (s : State) :
    s.aluEnableLine = true ↔ s.phase = .execute ∧ (decoder s.params s.ir).aluEn = true := by
  simp [State.aluEnableLine]

/-- A step drives the write port with rd, alu_out and the register write enable line (R15, R24). -/
theorem step_regs {s t : State} (hh : s.halted = false) (h : step s = .next t) :
    t.regs = s.regs.write (rdOf s.ir) s.aluOut s.writeEnableLine := by
  obtain ⟨hp, w, -, rfl⟩ | ⟨-, rfl⟩ := step_next_cases_of_running hh h
  · rw [(State.enableLines_of_fetch hp).2, RegFile.write_disabled]
  · by_cases hp : s.phase = .writeback <;> simp [cycle_regs, State.writeEnableLine, hp]

/-- A step latches the ALU result while the ALU enable line is asserted (R24, R26). -/
theorem step_aluOut {s t : State} (hh : s.halted = false) (h : step s = .next t) :
    t.aluOut = if s.aluEnableLine = true then
      s.params.add (operand1 (decoder s.params s.ir) s) (operand2 (decoder s.params s.ir) s) else s.aluOut := by
  obtain ⟨hp, w, -, rfl⟩ | ⟨-, rfl⟩ := step_next_cases_of_running hh h
  · simp [State.enableLines_of_fetch hp]
  · simp only [cycle_aluOut, State.aluEnableLine_iff]

/-- Settles O20: what a step does to the registers and to the ALU latch, by the lines (D10, D11). -/
theorem controlLinesGateEveryWrite : Obligations.ControlLinesGateEveryWrite := by
  intro s t hh h
  have hregs := step_regs hh h
  refine ⟨hregs, fun sel hne => ?_, s.writeEnableLine_iff, s.aluEnableLine_iff, step_aluOut hh h⟩
  rw [hregs, RegFile.read_write_other _ hne]

/-! ### The PC (R16, R17) -/

/-- Settles O21: a FETCH advances the PC, and a later phase does what `cycle_pc_of_not_fetch` says (D12). -/
theorem pcIsWrittenInFetchAndExecuteOnly : Obligations.PcIsWrittenInFetchAndExecuteOnly := by
  intro s t hh h
  obtain ⟨hp, w, -, rfl⟩ | ⟨hp, rfl⟩ := step_next_cases_of_running hh h
  · simp [hp, Params.add_toNat]
  · rw [cycle_pc_of_not_fetch _ hp]
    refine ⟨fun hf => absurd hf hp, fun he hoff => ?_, fun _ hoff => ?_, fun _ he => ?_⟩
    · rw [if_pos ⟨he, hoff⟩, Params.add_toNat]
    · rw [if_neg fun hbranch => hbranch.2 hoff]
    · rw [if_neg fun hbranch => he hbranch.1]

/-! ### The outcomes of a step (R36, R71) -/

/-- Settles O14: the three ways a step can go. -/
theorem stepFaultsExactlyOnFetchOutOfRange : Obligations.StepFaultsExactlyOnFetchOutOfRange := by
  intro s
  cases hh : s.halted with
  | true => simp [step_of_halted hh]
  | false =>
    by_cases hp : s.phase = .fetch
    · cases hw : s.mem.imem s.pc with
      | none => simp [step_of_fetch_none hh hp hw, hp]
      | some w => simp [step_of_fetch hh hp hw]
    · simp [step_of_not_fetch hh hp, hp]

/-- A step of a running core is exec of the instruction whose word it presents (R79, R81). -/
theorem step_eq_exec_of_present {s s' : State} {i : Instr} (hh : s.halted = false) (hp : present s = some s')
    (hi : decodeWord s'.ir = .ok i) : step s = exec i s' := by
  rw [step_of_present hh hp, exec_eq_cycle, decoder_of_decodeWord _ hi]

/-- Settles O15: a FETCH presents the word of the four bytes at pc, every other phase the word in `ir`. -/
theorem stepRunsTheDecodedInstruction : Obligations.StepRunsTheDecodedInstruction := by
  refine fun s i hh => ⟨fun b0 b1 b2 b3 hp h0 h1 h2 h3 hdec => ?_, fun hp hi => ?_⟩
  · have hw : s.mem.imem s.pc = some (wordOfBytes b0 b1 b2 b3) := by
      rw [Memory.imem_eq_readWord, Memory.readWord_eq_some h0 h1 h2 h3]
    refine step_eq_exec_of_present hh (present_of_fetch hp hw) ?_
    cases hi : decodeWord (wordOfBytes b0 b1 b2 b3) with
    | error e => simp [decode, hi] at hdec
    | ok j => simpa [decode, hi] using hdec
  · exact step_eq_exec_of_present hh (present_of_not_fetch hp) hi

/-! ### The instructions, phase by phase (41_integer.md, 42_jump.md) -/

/-- FETCH is the same for every instruction (R71). -/
theorem exec_of_fetch (i : Instr) {s : State} (h : s.phase = .fetch) :
    exec i s = .next { s with pc := s.params.add s.pc 4#64, phase := .decode } := by
  rw [exec_eq_cycle, cycle_of_fetch h, fetchPhase]

/-- DECODE of an instruction only advances the phase: it is legal (R72). -/
theorem exec_of_decode (i : Instr) {s : State} (h : s.phase = .decode) :
    exec i s = .next { s with phase := .memAccess } := by
  rw [exec_eq_cycle, cycle_of_decode h, decodePhase_of_legal (controlOf_illegal _ i)]

/-- MEMACCESS only advances the phase (R73). -/
theorem exec_of_memAccess (i : Instr) {s : State} (h : s.phase = .memAccess) :
    exec i s = .next { s with phase := .execute } := by
  rw [exec_eq_cycle, cycle_of_memAccess h, memAccessPhase]

/-- EXECUTE acts on the instruction's control record (R74, R75). -/
theorem exec_of_execute (i : Instr) {s : State} (h : s.phase = .execute) :
    exec i s = .next (executePhase (controlOf s.params i) s) := by
  rw [exec_eq_cycle, cycle_of_execute h]

/-- WRITEBACK drives the write port with the destination and retires the instruction (R76, R77). -/
theorem exec_of_writeback (i : Instr) {s : State} (h : s.phase = .writeback) :
    exec i s = .next { s with
      regs := s.regs.write i.dest s.aluOut (controlOf s.params i).regwrite, phase := .fetch,
      cycles := s.params.add s.cycles 1#64 } := by
  rw [exec_eq_cycle, cycle_of_writeback h, writebackPhase, controlOf_rd]

/-- Settles O22: the phases every instruction shares, and the sum of two registers in EXECUTE. -/
theorem addRunsInEveryPhase : Obligations.AddRunsInEveryPhase := by
  refine fun funct3 rd rs1 rs2 s => ⟨exec_of_fetch _, exec_of_decode _, exec_of_memAccess _, fun h => ?_,
    exec_of_writeback _⟩
  rw [exec_of_execute _ h]
  rfl

/-- Settles O23: as ADD, with imm_ADDI as the second operand. -/
theorem addiRunsInEveryPhase : Obligations.AddiRunsInEveryPhase := by
  refine fun rd rs1 imm s => ⟨exec_of_fetch _, exec_of_decode _, exec_of_memAccess _, fun h => ?_,
    exec_of_writeback _⟩
  rw [exec_of_execute _ h]
  rfl

/-- Settles O24: EXECUTE by whether the JAL links and by JAL_LINK, the other phases as every instruction's (D8,
D9). -/
theorem jalRunsInEveryPhase : Obligations.JalRunsInEveryPhase := by
  refine fun rd off s => ⟨exec_of_fetch _, exec_of_decode _, exec_of_memAccess _, fun h => ?_, fun h => ?_⟩
  · rw [exec_of_execute _ h, controlOf, executePhase, jalControl_branchOffset, jalControl_aluEn, alu_enabled]
    by_cases hrd : rd = 0#5
    · simp [hrd]
    · obtain ⟨hsrc1, hsrc2⟩ := jalControl_sources s.params hrd off
      cases hlink : s.params.jalLink <;> simp [operand1, operand2, hsrc1, hsrc2, hrd, hlink]
  · rw [exec_of_writeback _ h, controlOf, jalControl_regwrite]
    rfl

/-- Settles O29: field by field, what the phase of a legal control record changes. -/
theorem instructionsChangeOnlyTheirDestination : Obligations.InstructionsChangeOnlyTheirDestination := by
  intro i s t h
  obtain rfl := Host.Outcome.next.inj ((exec_eq_cycle i s).symm.trans h)
  obtain ⟨hm, hp⟩ := cycle_keeps_mem_params (controlOf s.params i) s
  refine ⟨hm, fun a => by rw [hm], hp, ?_, cycle_ir _ s, fun sel hne => ?_, fun hwb => ?_, fun hex => ?_⟩
  · rw [Bool.eq_iff_iff, cycle_halted_iff]
    simp
  · rw [cycle_regs, controlOf_rd]
    split
    · exact RegFile.read_write_other _ hne _ _
    · rfl
  · exact ⟨by rw [cycle_regs, if_neg hwb], by rw [cycle_cycles, if_neg hwb]⟩
  · rw [cycle_aluOut, if_neg fun hlatch => hex hlatch.1]

/-- Settles O35: a legal control record does not raise the exception, and DECODE raises it by `step_halted_iff`. -/
theorem legalInstructionsNeverHalt : Obligations.LegalInstructionsNeverHalt := by
  refine ⟨fun i s t hh h => ?_, fun s t hh hp h => ?_⟩
  · obtain ⟨-, -, -, hhalt, -⟩ := instructionsChangeOnlyTheirDestination i s t h
    rw [hhalt, hh]
  · simp [step_halted_iff h, hh, hp]

end Sys2Proof.Machine

namespace Sys2Proof

/-! ### Bit 0 of a sum modulo 2^XLEN (20_memory.md R37) -/

/-- XLEN is at least 1, so a value keeps its bit 0. -/
theorem Params.wrap_bit_zero (p : Params) (w : Word) : (p.wrap w).getLsbD 0 = w.getLsbD 0 := by
  have hpos : 0 < p.xlen.bits := Nat.lt_of_lt_of_le (by decide) p.xlen.thirtyTwo_le_bits
  simp [Params.wrap, hpos]

/-- The sum of two even values is even. -/
theorem Params.add_bit_zero (p : Params) {a b : Word} (ha : a.getLsbD 0 = false) (hb : b.getLsbD 0 = false) :
    (p.add a b).getLsbD 0 = false := by
  rw [Params.add, Params.wrap_bit_zero]
  simp only [BitVec.getLsbD, Nat.testBit_zero, decide_eq_false_iff_not, BitVec.toNat_add] at ha hb ⊢
  omega

/-- The branch offset of a JAL with an even offset is even (R62). -/
theorem jalBranchOffset_bit_zero (p : Params) {off : BitVec 21} (h : off.getLsbD 0 = false) :
    (jalBranchOffset p off).getLsbD 0 = false := by
  have heven : (jalOffset p off).getLsbD 0 = false := by
    rw [jalOffset, Params.sext, Params.wrap_bit_zero]
    rw [BitVec.getLsbD_signExtend, if_pos (by decide), h]
    rfl
  rw [jalBranchOffset, Params.sub, BitVec.sub_eq_add_neg]
  exact p.add_bit_zero heven (by decide)

/-- Taking off what was added gives back an XLEN-bit value. -/
theorem Params.sub_add_cancel {p : Params} {a : Word} (h : p.fits a) (b : Word) : p.sub (p.add a b) b = a := by
  have hsub (c : Word) : p.sub c b = p.add c (-b) := by rw [Params.sub, Params.add, BitVec.sub_eq_add_neg]
  rw [hsub, Params.add_add, BitVec.add_right_neg, Params.add, BitVec.add_zero, p.wrap_of_fits h]

/-- Adding 0 to an XLEN-bit value changes nothing. -/
theorem Params.add_zero_of_fits {p : Params} {a : Word} (h : p.fits a) : p.add a 0#64 = a := by
  rw [Params.add, BitVec.add_zero, p.wrap_of_fits h]

/-- The branch offset of every word is even (R37, R62). -/
theorem decoder_branchOffset_bit_zero (p : Params) (w : InstrWord) :
    (decoder p w).branchOffset.getLsbD 0 = false := by
  cases h : decodeWord w with
  | error e =>
    rw [Machine.decoder_of_error p h]
    exact BitVec.getLsbD_zero
  | ok i =>
    have hwf := Machine.wf_of_decodeWord h
    rw [Machine.decoder_of_decodeWord p h]
    cases i with
    | add => exact BitVec.getLsbD_zero
    | addi => exact BitVec.getLsbD_zero
    | jal rd off =>
      rw [Machine.controlOf, Machine.jalControl_branchOffset]
      exact jalBranchOffset_bit_zero p (by simpa [Instr.wf] using hwf)

/-- Only a JAL that links reads the PC, and its second operand is 0 (R61). -/
theorem decoder_src2_of_src1_pc {p : Params} {w : InstrWord} (h : (decoder p w).src1 = .pc) :
    (decoder p w).src2 = .zero := by
  cases hd : decodeWord w with
  | error e =>
    rw [Machine.decoder_of_error p hd] at h
    cases h
  | ok i =>
    rw [Machine.decoder_of_decodeWord p hd] at h ⊢
    cases i with
    | add => cases h
    | addi => cases h
    | jal rd off =>
      by_cases hrd : rd = 0#5
      · simp [Machine.controlOf, Machine.jalControl, DecodedControl.base, hrd] at h
      · exact (Machine.jalControl_sources p hrd off).2

end Sys2Proof

namespace Sys2Proof.Machine

/-! ### What every step keeps of the invariant -/

/-- Bit 0 of the PC never becomes 1: only even values are added to it (R37). -/
theorem step_keeps_pcEven {s t : State} (hh : s.halted = false) (hs : s.pc.getLsbD 0 = false)
    (h : step s = .next t) : t.pc.getLsbD 0 = false := by
  obtain ⟨-, w, -, rfl⟩ | ⟨hp, rfl⟩ := step_next_cases_of_running hh h
  · exact s.params.add_bit_zero hs (by decide)
  · rw [cycle_pc_of_not_fetch _ hp]
    split
    · exact s.params.add_bit_zero hs (decoder_branchOffset_bit_zero _ _)
    · exact hs

/-- EXECUTE adds the branch offset to an XLEN-bit PC, also where it is 0 (R75). -/
theorem executePhase_pc_of_fits {s : State} (h : s.params.fits s.pc) (d : DecodedControl) :
    (executePhase d s).pc = s.params.add s.pc d.branchOffset := by
  rw [executePhase_pc]
  split
  · next hzero => rw [hzero, Params.add_zero_of_fits h]
  · rfl

/-- What EXECUTE latches is the result read back from the state after it: the operands are unchanged but for the PC,
whose branch offset is subtracted again (R74, R89). -/
theorem executePhase_executedResult {s : State} (hpc : s.params.fits s.pc) :
    (executePhase (decoder s.params s.ir) s).executedResult =
      s.params.add (operand1 (decoder s.params s.ir) s) (operand2 (decoder s.params s.ir) s) := by
  have hpc' := executePhase_pc_of_fits hpc (decoder s.params s.ir)
  cases hsrc : (decoder s.params s.ir).src1 with
  | rs1 => simp [State.executedResult, operand1, operand2, hsrc]
  | pc =>
    have hsrc2 := decoder_src2_of_src1_pc hsrc
    simp only [State.executedResult, operand1, operand2, executePhase_params, executePhase_ir, hpc', hsrc, hsrc2]
    cases s.params.jalLink with
    | next => exact (Params.sub_add_cancel hpc _).trans (Params.add_zero_of_fits hpc).symm
    | target => exact (Params.add_zero_of_add ..).symm

/-- After the EXECUTE of an instruction whose alu_en is true, the ALU latch holds the result. -/
theorem executePhase_latches_executedResult {s : State} (hpc : s.params.fits s.pc)
    (halu : (decoder s.params s.ir).aluEn = true) :
    (executePhase (decoder s.params s.ir) s).aluOut = (executePhase (decoder s.params s.ir) s).executedResult := by
  rw [executePhase_executedResult hpc, executePhase_aluOut, if_pos halu, alu_enabled]

/-- The part of `State.Inv` that speaks of the phase: where a core is halted, which words reach which phase, and
what the ALU latch holds in WRITEBACK. -/
structure State.PhaseInv (s : State) : Prop where
  haltedPhase : s.halted = true → s.phase = .memAccess
  memAccessIllegal : s.phase = .memAccess → (s.halted = true ↔ s.irIllegal)
  executeLegal : s.phase = .execute → ¬ s.irIllegal
  writebackLegal : s.phase = .writeback → ¬ s.irIllegal
  writebackResult : s.phase = .writeback → (decoder s.params s.ir).aluEn = true → s.aluOut = s.executedResult

/-- In FETCH and DECODE it says only that the core is not halted. -/
theorem State.phaseInv_of_running {s : State} (hh : s.halted = false) (hp : s.phase = .fetch ∨ s.phase = .decode) :
    s.PhaseInv := by
  have hlate : s.phase ≠ .memAccess ∧ s.phase ≠ .execute ∧ s.phase ≠ .writeback := by
    obtain hp | hp := hp <;> simp [hp]
  obtain ⟨hmem, hexec, hwb⟩ := hlate
  exact
    { haltedPhase := by simp [hh]
      memAccessIllegal := (absurd · hmem)
      executeLegal := (absurd · hexec)
      writebackLegal := (absurd · hwb)
      writebackResult := (absurd · hwb) }

/-- Each phase hands on what the next one needs: DECODE halts on exactly the illegal words, so a core that goes on to
EXECUTE has a legal one, and EXECUTE latches its result (R63, R72, R74). -/
theorem step_keeps_phaseInv {s t : State} (hh : s.halted = false) (hpc : s.params.fits s.pc) (hs : s.PhaseInv)
    (h : step s = .next t) : t.PhaseInv := by
  obtain ⟨-, w, -, rfl⟩ | ⟨-, rfl⟩ := step_next_cases_of_running hh h
  · exact State.phaseInv_of_running hh (.inr rfl)
  · cases hp : s.phase with
    | fetch =>
      rw [cycle_of_fetch hp]
      exact State.phaseInv_of_running hh (.inr rfl)
    | decode =>
      rw [cycle_of_decode hp]
      exact
        { haltedPhase := fun _ => rfl
          memAccessIllegal := by simp [State.irIllegal, hh]
          executeLegal := by simp
          writebackLegal := by simp
          writebackResult := by simp }
    | memAccess =>
      have hlegal : ¬ s.irIllegal := fun hill => by simpa [hh] using (hs.memAccessIllegal hp).mpr hill
      rw [cycle_of_memAccess hp]
      exact
        { haltedPhase := by simp [hh]
          memAccessIllegal := by simp
          executeLegal := fun _ => hlegal
          writebackLegal := by simp
          writebackResult := by simp }
    | execute =>
      rw [cycle_of_execute hp]
      exact
        { haltedPhase := by simp [hh]
          memAccessIllegal := by simp
          executeLegal := by simp
          writebackLegal := fun _ => hs.executeLegal hp
          writebackResult := fun _ halu => executePhase_latches_executedResult hpc halu }
    | writeback =>
      rw [cycle_of_writeback hp]
      exact State.phaseInv_of_running hh (.inl rfl)

/-- The invariant holds of a state whose memory is well-formed, whose values are XLEN bits wide, whose PC is even and
whose phase says what it should. -/
theorem State.Inv.of_parts {s : State} (hwf : s.mem.wf) (hspace : ∀ c ∈ s.mem, c.1 < 2 ^ s.params.xlen.bits)
    (hloaded : s.mem ≠ [] → s.Loaded) (hfit : s.ValuesFit) (heven : s.pc.getLsbD 0 = false) (hphase : s.PhaseInv) :
    s.Inv where
  memWf := hwf
  memInSpace := hspace
  memLoaded := hloaded
  regsFit := hfit.regs
  pcFits := hfit.pc
  cyclesFit := hfit.cycles
  aluOutFits := hfit.aluOut
  pcEven := heven
  haltedPhase := hphase.haltedPhase
  memAccessIllegal := hphase.memAccessIllegal
  executeLegal := hphase.executeLegal
  writebackLegal := hphase.writebackLegal
  writebackResult := hphase.writebackResult

theorem State.Inv.valuesFit {s : State} (h : s.Inv) : s.ValuesFit :=
  ⟨h.regsFit, h.pcFits, h.cyclesFit, h.aluOutFits⟩

theorem State.Inv.phaseInv {s : State} (h : s.Inv) : s.PhaseInv :=
  ⟨h.haltedPhase, h.memAccessIllegal, h.executeLegal, h.writebackLegal, h.writebackResult⟩

/-- Settles O41: a halted core stays as it is; a step of a running one keeps the memory, the XLEN-bit values, the
even PC and what the phase says, part by part. -/
theorem stepKeepsTheInvariant : Obligations.StepKeepsTheInvariant := by
  intro s t hs h
  obtain ⟨hm, hp⟩ := step_keeps_mem_params h
  cases hh : s.halted with
  | true =>
    obtain rfl := Host.Outcome.next.inj ((step_of_halted hh).symm.trans h)
    exact hs
  | false =>
    refine State.Inv.of_parts ?_ ?_ (fun hne => ?_) (step_keeps_valuesFit hs.valuesFit h)
      (step_keeps_pcEven hh hs.pcEven h) (step_keeps_phaseInv hh hs.pcFits hs.phaseInv h)
    · exact hm ▸ hs.memWf
    · rw [hm, hp]
      exact hs.memInSpace
    · exact step_keeps_loaded (hs.memLoaded (hm ▸ hne)) h

/-! ### The invariant at construction -/

/-- The reset state over a list of words that fits the address space and over XLEN-bit draws meets the invariant,
whether or not there is any word. -/
theorem State.initial_inv {p : Params} {program : List InstrWord} {regInit : RegFile} {aluInit : Word}
    (irInit : InstrWord) (hlen : program.length ≤ 2 ^ (p.xlen.bits - 2)) (hregs : ∀ sel, p.fits (regInit.read sel))
    (halu : p.fits aluInit) : (State.initial p program regInit irInit aluInit).Inv := by
  refine State.Inv.of_parts (Memory.ofWordsFrom_wf 0 program) (fun c hc => ?_) (fun hne => ?_)
    ⟨hregs, p.zero_fits, p.zero_fits, halu⟩ (by simp) (State.phaseInv_of_running rfl (.inl rfl))
  · obtain ⟨-, hlt⟩ := Memory.ofWordsFrom_range hc
    calc c.1 < 4 * (0 + program.length) := hlt
      _ ≤ 4 * 2 ^ (p.xlen.bits - 2) := by omega
      _ = 2 ^ p.xlen.bits := p.four_mul_pow_bits
  · have hpos : program ≠ [] := fun hnil => hne (by rw [hnil]; rfl)
    exact ⟨program, ⟨List.length_pos_of_ne_nil hpos, hlen⟩, rfl⟩

/-- Settles O40: an admissible PROGRAM fits the address space, and so does the empty one of State.reset. -/
theorem constructedCoreMeetsTheInvariant : Obligations.ConstructedCoreMeetsTheInvariant := by
  refine ⟨fun p program regInit irInit aluInit hprog hregs halu => State.initial_inv irInit hprog.2 hregs halu, ?_⟩
  rw [resetHasNothingLoaded.1]
  exact State.initial_inv 0#32 (Nat.zero_le _) (by decide) (Params.zero_fits _)

end Sys2Proof.Machine

namespace Sys2Proof.Machine

/-! ### Runs, step after step -/

/-- A run of one step is that step. -/
theorem steps_one (s : State) : steps 1 s = step s := by
  cases h : step s <;> simp [steps, h]

/-- A run of `n` steps goes on as the run of the state it answers. -/
theorem steps_add_of_next {n : Nat} {s t : State} (h : steps n s = .next t) (k : Nat) :
    steps (n + k) s = steps k t := by
  induction n generalizing s with
  | zero =>
    obtain rfl := Host.Outcome.next.inj h
    rw [Nat.zero_add]
  | succ n ih =>
    cases hu : step s with
    | next u =>
      simp only [steps, hu] at h
      rw [Nat.add_right_comm]
      exact steps_succ_of_next hu (ih h)
    | fault f => simp only [steps, hu] at h; cases h
    | refused r => simp only [steps, hu] at h; cases h

/-- A run that has faulted stays faulted. -/
theorem steps_add_of_fault {n : Nat} {s : State} {f : Fault} (h : steps n s = .fault f) (k : Nat) :
    steps (n + k) s = .fault f := by
  induction n generalizing s with
  | zero => cases h
  | succ n ih =>
    rw [Nat.add_right_comm]
    cases hu : step s with
    | next u =>
      simp only [steps, hu] at h
      exact steps_succ_of_next hu (ih h)
    | fault g =>
      cases f
      cases g
      exact steps_succ_of_fault hu
    | refused r => simp only [steps, hu] at h; cases h

/-- No run is refused: no step is (R106). -/
theorem steps_ne_refused (n : Nat) (s : State) (r : Refusal) : steps n s ≠ .refused r := by
  induction n generalizing s with
  | zero => simp [steps]
  | succ n ih =>
    cases hu : step s with
    | next u => simpa only [steps, hu] using ih u
    | fault f => simp [steps, hu]
    | refused q => exact absurd hu ((stepFaultsExactlyOnFetchOutOfRange s).2 q)

/-- A run of one more step ends with a step of the state before. -/
theorem exists_last_step {n : Nat} {s t : State} (h : steps (n + 1) s = .next t) :
    ∃ u, steps n s = .next u ∧ step u = .next t := by
  cases hn : steps n s with
  | next u => exact ⟨u, rfl, by rw [← steps_one, ← steps_add_of_next hn 1, h]⟩
  | fault f =>
    rw [steps_add_of_fault hn] at h
    cases h
  | refused r => exact absurd hn (steps_ne_refused n s r)

/-- Settles O36: a run that neither halts nor faults answers a state that is not halted after any number of steps; a
halted state is final, and so is a fault (D13, D29). -/
theorem everyRunEndsInOneOfThreeWays : Obligations.EveryRunEndsInOneOfThreeWays := by
  intro s
  refine ⟨?_, ?_, ?_, ?_⟩
  · by_contra! hnot
    obtain ⟨hhalt, hfault, hforever⟩ := hnot
    refine hforever fun n => ?_
    cases hn : steps n s with
    | next t => exact ⟨t, rfl, Bool.eq_false_of_not_eq_true fun ht => hhalt ⟨n, t, hn, ht⟩⟩
    | fault f => cases f; exact absurd ⟨n, hn⟩ hfault
    | refused r => exact absurd hn (steps_ne_refused n s r)
  · rintro ⟨⟨n, t, hn, ht⟩, m, hm⟩
    have hnext := (steps_add_of_next hn m).trans (steps_of_halted ht m)
    rw [Nat.add_comm, steps_add_of_fault hm n] at hnext
    cases hnext
  · rintro ⟨⟨n, t, hn, ht⟩, hforever⟩
    obtain ⟨u, hu, hrunning⟩ := hforever n
    obtain rfl := Host.Outcome.next.inj (hn.symm.trans hu)
    simp [ht] at hrunning
  · rintro ⟨⟨n, hn⟩, hforever⟩
    obtain ⟨u, hu, -⟩ := hforever n
    rw [hn] at hu
    cases hu

/-! ### An illegal word (R93, R95) -/

/-- DECODE of an illegal word sets the halt latch and advances the phase (R72). -/
theorem decodePhase_of_illegal {d : DecodedControl} (h : d.illegal = true) (s : State) :
    decodePhase d s = { s with phase := .memAccess, halted := true } := by
  simp [decodePhase, takeException, h]

/-- Settles O32: FETCH latches the word, DECODE halts on it, and a halted core stays as it is (D18). -/
theorem illegalWordHaltsPrecisely : Obligations.IllegalWordHaltsPrecisely := by
  intro s w e hh hp hw herr
  have hfetch := step_of_fetch hh hp hw
  have hill := (decoder_illegal_iff s.params w).mpr ⟨e, herr⟩
  refine ⟨steps_succ_of_next hfetch rfl, fun n => steps_succ_of_next hfetch ?_⟩
  refine steps_succ_of_next (step_of_decode hh rfl) ?_
  rw [decodePhase_of_illegal hill]
  exact steps_of_halted rfl n

/-! ### The five steps of a legal word (R119, R120) -/

/-- The state after the FETCH step that latches a word (R71). -/
def State.afterFetch (s : State) (w : InstrWord) : State :=
  { s with ir := w, pc := s.params.add s.pc 4#64, phase := .decode }

/-- The state before the EXECUTE step of a legal word: DECODE and MEMACCESS have only advanced the phase. -/
def State.beforeExecute (s : State) (w : InstrWord) : State :=
  { s.afterFetch w with phase := .execute }

/-- The step out of each phase of a legal word. -/
theorem step_chain_of_legal {s : State} {w : InstrWord} (hh : s.halted = false) (hp : s.phase = .fetch)
    (hw : s.mem.imem s.pc = some w) (hlegal : (decoder s.params w).illegal = false) :
    step s = .next (s.afterFetch w) ∧
      step (s.afterFetch w) = .next { s.afterFetch w with phase := .memAccess } ∧
      step { s.afterFetch w with phase := .memAccess } = .next (s.beforeExecute w) ∧
      step (s.beforeExecute w) = .next (executePhase (decoder s.params w) (s.beforeExecute w)) ∧
      step (executePhase (decoder s.params w) (s.beforeExecute w)) =
        .next (writebackPhase (decoder s.params w) (executePhase (decoder s.params w) (s.beforeExecute w))) := by
  refine ⟨step_of_fetch hh hp hw, ?_, step_of_memAccess hh rfl, step_of_execute hh rfl, step_of_writeback hh rfl⟩
  rw [step_of_decode (s := s.afterFetch w) hh rfl]
  exact congrArg _ (decodePhase_of_legal hlegal _)

/-- EXECUTE leaves the address of the instruction to come in the PC (R86, R88). -/
theorem controlOf_executed_pc (p : Params) (a : Word) (i : Instr) :
    (if (controlOf p i).branchOffset = 0#64 then p.add a 4#64
      else p.add (p.add a 4#64) (controlOf p i).branchOffset) = i.nextPc p a := by
  cases i with
  | add => exact if_pos rfl
  | addi => exact if_pos rfl
  | jal rd off =>
    rw [controlOf, jalControl_branchOffset]
    exact jal_executed_pc p a off

/-- Settles O31: the snapshots along the five steps of a legal word (D11). -/
theorem snapshotAfterEachStepOfAnInstruction : Obligations.SnapshotAfterEachStepOfAnInstruction := by
  intro i s hwf hh hp hw
  have hd := decoder_of_decodeWord s.params (decodeWord_encode hwf)
  obtain ⟨h1, h2, h3, h4, h5⟩ := step_chain_of_legal hh hp hw (by rw [hd, controlOf_illegal])
  rw [hd] at h4 h5
  refine ⟨_, _, _, _, _, h1, h2, h3, h4, h5, rfl, rfl, rfl, ?_, ?_⟩
  · exact congrArg (fun pc => { (s.beforeExecute (encode i)).snapshot with pc := pc, stage := .writeback })
      (controlOf_executed_pc s.params s.pc i)
  · rw [hd, ← controlOf_rd s.params i]
    rfl

/-- Settles O30: ADD and ADDI run to their end, and the write port drops the sum. -/
theorem writeToAnUnmappedSelectorIsANop : Obligations.WriteToAnUnmappedSelectorIsANop := by
  intro i s hnotJal hdest hh hp hw
  cases i with
  | add funct3 rd rs1 rs2 =>
    obtain ⟨-, -, sum, -, hsteps, hdropped, -⟩ := addNetEffect funct3 rd rs1 rs2 s hh hp hw
    exact ⟨_, hsteps, by rw [hdropped hdest]; rfl⟩
  | addi rd rs1 imm =>
    obtain ⟨-, -, sum, -, hsteps, hdropped, -⟩ := addiNetEffect rd rs1 imm s hh hp hw
    exact ⟨_, hsteps, by rw [hdropped hdest]; rfl⟩
  | jal rd off => exact absurd rfl (hnotJal rd off)

/-- Settles O42: a legal word's five steps, an illegal word's two, and the fault of a FETCH without a word. -/
theorem instructionsTakeFiveSteps : Obligations.InstructionsTakeFiveSteps := by
  intro s hh hp
  refine ⟨fun w i hw hi => ?_, fun w e hw herr => ?_, fun hw => steps_succ_of_fault (step_of_fetch_none hh hp hw)⟩
  · have hlegal : (decoder s.params w).illegal = false := by rw [decoder_of_decodeWord _ hi, controlOf_illegal]
    obtain ⟨h1, h2, h3, h4, h5⟩ := step_chain_of_legal hh hp hw hlegal
    have one := (steps_one s).trans h1
    have two := (steps_add_of_next one 1).trans ((steps_one _).trans h2)
    have three := (steps_add_of_next two 1).trans ((steps_one _).trans h3)
    have four := (steps_add_of_next three 1).trans ((steps_one _).trans h4)
    have five := (steps_add_of_next four 1).trans ((steps_one _).trans h5)
    refine ⟨⟨_, five, rfl, hh, rfl⟩, fun n hlo hhi => ?_⟩
    interval_cases n
    · exact ⟨_, one, by simp [State.afterFetch], hh, rfl, rfl⟩
    · exact ⟨_, two, by simp, hh, rfl, rfl⟩
    · exact ⟨_, three, by simp [State.beforeExecute], hh, rfl, rfl⟩
    · exact ⟨_, four, by simp, hh, rfl, rfl⟩
  · obtain ⟨hone, htwo⟩ := illegalWordHaltsPrecisely s w e hh hp hw herr
    exact ⟨⟨_, hone, hh⟩, _, htwo 0, rfl, rfl, rfl⟩

end Sys2Proof.Machine

namespace Sys2Proof.Machine

/-! ### The step-count law (R121) -/

/-- The next phase's number is one more, modulo 5 (R19, R70). -/
theorem Phase.succ_number (q : Phase) : q.succ.number = (q.number + 1) % 5 := by
  cases q <;> rfl

theorem Phase.number_eq_four_iff (q : Phase) : q.number = 4 ↔ q = .writeback := by
  cases q <;> simp [Phase.number]

theorem Phase.number_eq_zero_iff (q : Phase) : q.number = 0 ↔ q = .fetch := by
  cases q <;> simp [Phase.number]

/-- A step that leaves a core running started from a running one: the halt latch is never cleared (R20). -/
theorem halted_eq_false_of_step {s t : State} (h : step s = .next t) (ht : t.halted = false) : s.halted = false := by
  cases hh : s.halted with
  | false => rfl
  | true =>
    have hset := (step_halted_iff h).mpr (.inl hh)
    simp [ht] at hset

/-- After `n` steps from FETCH with the counter at 0, a core still running has retired n div 5 instructions and is in
the (n mod 5)-th phase. -/
theorem steps_cycles_and_phase {s t : State} (hcycles : s.cycles = 0#64) (hphase : s.phase = .fetch) {n : Nat}
    (h : steps n s = .next t) (ht : t.halted = false) :
    t.cycles.toNat = n / 5 % 2 ^ s.params.xlen.bits ∧ t.phase.number = n % 5 := by
  induction n generalizing t with
  | zero =>
    obtain rfl := Host.Outcome.next.inj h
    simp [hcycles, hphase, Phase.number]
  | succ n ih =>
    obtain ⟨u, hu, hut⟩ := exists_last_step h
    have huh := halted_eq_false_of_step hut ht
    obtain ⟨ihcycles, ihphase⟩ := ih hu huh
    obtain ⟨hsucc, hcount⟩ := step_phase_and_cycles huh hut
    refine ⟨?_, by rw [hsucc, Phase.succ_number, ihphase, Nat.mod_add_mod]⟩
    by_cases hwb : u.phase = .writeback
    · have hlast : n % 5 = 4 := by rw [← ihphase, (Phase.number_eq_four_iff _).mpr hwb]
      have hdiv : (n + 1) / 5 = n / 5 + 1 := by omega
      rw [hcount, if_pos hwb, Params.add_toNat, (steps_keep_mem_params hu).2, ihcycles, hdiv]
      exact Nat.mod_add_mod _ _ _
    · have hmid : n % 5 ≠ 4 := by rwa [← ihphase, Ne, Phase.number_eq_four_iff]
      have hdiv : (n + 1) / 5 = n / 5 := by omega
      rw [hcount, if_neg hwb, ihcycles, hdiv]

/-- Settles O43: the count law, and the two steps of an illegal word after k - 1 instructions. -/
theorem stepCountLaw : Obligations.StepCountLaw := by
  intro p program regInit irInit aluInit
  refine ⟨fun n t h ht => steps_cycles_and_phase rfl rfl h ht, fun k u w e _ hu huh hw herr => ?_⟩
  obtain ⟨hcycles, hphase⟩ := steps_cycles_and_phase rfl rfl hu huh
  rw [Nat.mul_mod_right, Phase.number_eq_zero_iff] at hphase
  rw [Nat.mul_div_cancel_left _ (by decide)] at hcycles
  obtain ⟨hone, htwo⟩ := illegalWordHaltsPrecisely u w e huh hphase hw herr
  exact ⟨⟨_, (steps_add_of_next hu 1).trans hone, huh⟩,
    _, (steps_add_of_next hu 2).trans (htwo 0), rfl, hcycles, rfl⟩

/-! ### The initial latches are never observed (R114) -/

/-- A state with other contents in the two latches. -/
def State.withLatches (s : State) (ir : InstrWord) (aluOut : Word) : State :=
  { s with ir := ir, aluOut := aluOut }

/-- Two states that differ in `ir` and `alu_out` alone, and in neither while it is still to be read: `ir` is read
until the next FETCH latches a word, `alu_out` in the WRITEBACK of an instruction that writes a register. -/
def LatchEquiv (s t : State) : Prop :=
  ∃ ir aluOut, t = s.withLatches ir aluOut ∧ (s.phase ≠ .fetch → ir = s.ir) ∧
    (s.phase = .writeback → (decoder s.params s.ir).regwrite = true → aluOut = s.aluOut)

theorem LatchEquiv.snapshot_eq {s t : State} (h : LatchEquiv s t) : s.snapshot = t.snapshot := by
  obtain ⟨ir, aluOut, rfl, -, -⟩ := h
  rfl

/-- Two outcomes that no observation tells apart: next states that differ in unread latches, or one fault. -/
def OutcomeEquiv (o o' : Host.Outcome State Fault Refusal) : Prop :=
  (∀ s, o = .next s → ∃ t, o' = .next t ∧ LatchEquiv s t) ∧ (∀ f, o = .fault f → o' = .fault f)

theorem OutcomeEquiv.of_next {s t : State} (h : LatchEquiv s t) : OutcomeEquiv (.next s) (.next t) := by
  refine ⟨fun u hu => ⟨t, rfl, ?_⟩, nofun⟩
  rwa [← Host.Outcome.next.inj hu]

/-- An instruction that writes a register has its ALU enabled (R60, R61). -/
theorem decoder_aluEn_of_regwrite {p : Params} {w : InstrWord} (h : (decoder p w).regwrite = true) :
    (decoder p w).aluEn = true := by
  cases hd : decodeWord w with
  | error e =>
    rw [decoder_of_error p hd] at h
    cases h
  | ok i =>
    rw [decoder_of_decodeWord p hd] at h ⊢
    cases i with
    | add => rfl
    | addi => rfl
    | jal rd off => rwa [controlOf, jalControl_aluEn, ← jalControl_regwrite p rd off]

/-- No phase after FETCH observes an ALU latch that is not to be read: EXECUTE latches a result before a WRITEBACK
that reads one. -/
theorem cycle_latchEquiv {s : State} (hp : s.phase ≠ .fetch) {aluOut : Word}
    (hread : s.phase = .writeback → (decoder s.params s.ir).regwrite = true → aluOut = s.aluOut) :
    LatchEquiv (cycle (decoder s.params s.ir) s) (cycle (decoder s.params s.ir) (s.withLatches s.ir aluOut)) := by
  cases hq : s.phase with
  | fetch => exact absurd hq hp
  | decode =>
    rw [cycle_of_decode hq, cycle_of_decode (s := s.withLatches s.ir aluOut) hq]
    refine ⟨s.ir, aluOut, ?_, by simp, by simp⟩
    cases hill : (decoder s.params s.ir).illegal with
    | true => simp [decodePhase_of_illegal hill, State.withLatches]
    | false => simp [decodePhase_of_legal hill, State.withLatches]
  | memAccess =>
    rw [cycle_of_memAccess hq, cycle_of_memAccess (s := s.withLatches s.ir aluOut) hq]
    exact ⟨s.ir, aluOut, rfl, by simp, by simp⟩
  | execute =>
    rw [cycle_of_execute hq, cycle_of_execute (s := s.withLatches s.ir aluOut) hq]
    refine ⟨s.ir, _, rfl, fun _ => rfl, fun _ hwrite => ?_⟩
    have halu := decoder_aluEn_of_regwrite hwrite
    exact (if_pos halu).trans (if_pos halu).symm
  | writeback =>
    rw [cycle_of_writeback hq, cycle_of_writeback (s := s.withLatches s.ir aluOut) hq]
    refine ⟨s.ir, aluOut, ?_, by simp, by simp⟩
    cases hwrite : (decoder s.params s.ir).regwrite with
    | true => simp [writebackPhase, State.withLatches, hread hq hwrite]
    | false => simp [writebackPhase, State.withLatches, hwrite]

/-- States that differ in unread latches step alike. -/
theorem step_outcomeEquiv {s t : State} (h : LatchEquiv s t) : OutcomeEquiv (step s) (step t) := by
  obtain ⟨ir, aluOut, rfl, hir, halu⟩ := h
  cases hh : s.halted with
  | true =>
    rw [step_of_halted hh, step_of_halted (s := s.withLatches ir aluOut) hh]
    exact .of_next ⟨ir, aluOut, rfl, hir, halu⟩
  | false =>
    by_cases hp : s.phase = .fetch
    · cases hw : s.mem.imem s.pc with
      | none =>
        rw [step_of_fetch_none hh hp hw, step_of_fetch_none (s := s.withLatches ir aluOut) hh hp hw]
        exact ⟨nofun, fun _ => id⟩
      | some w =>
        rw [step_of_fetch hh hp hw, step_of_fetch (s := s.withLatches ir aluOut) hh hp hw]
        exact .of_next ⟨w, aluOut, rfl, fun _ => rfl, by simp⟩
    · rw [hir hp, step_of_not_fetch hh hp, step_of_not_fetch (s := s.withLatches s.ir aluOut) hh hp]
      exact .of_next (cycle_latchEquiv hp halu)

/-- States that differ in unread latches run alike. -/
theorem steps_outcomeEquiv {s t : State} (h : LatchEquiv s t) (n : Nat) : OutcomeEquiv (steps n s) (steps n t) := by
  induction n generalizing s t with
  | zero => exact .of_next h
  | succ n ih =>
    obtain ⟨hnext, hfault⟩ := step_outcomeEquiv h
    cases hs : step s with
    | next u =>
      obtain ⟨v, hv, huv⟩ := hnext u hs
      rw [steps_succ_of_next hs rfl, steps_succ_of_next hv rfl]
      exact ih huv
    | fault f =>
      rw [steps_succ_of_fault hs, steps_succ_of_fault (hfault f hs)]
      exact ⟨nofun, fun _ => id⟩
    | refused r => exact absurd hs ((stepFaultsExactlyOnFetchOutOfRange s).2 r)

/-- Settles O44: in FETCH neither latch is still to be read, and runs from there are alike. -/
theorem initialLatchesAreNeverObserved : Obligations.InitialLatchesAreNeverObserved := by
  intro p program regInit ir1 ir2 alu1 alu2 n
  have hstart : LatchEquiv (State.initial p program regInit ir1 alu1) (State.initial p program regInit ir2 alu2) :=
    ⟨ir2, alu2, rfl, by simp, by simp⟩
  obtain ⟨hnext, hfault⟩ := steps_outcomeEquiv hstart n
  refine ⟨fun t1 h1 => ?_, hfault⟩
  obtain ⟨t2, h2, hequiv⟩ := hnext t1 h1
  exact ⟨t2, h2, hequiv.snapshot_eq⟩

end Sys2Proof.Machine
